-- ==== Sys2Proof/Word.lean ====
section
/-!
DEFINITION. The words of the block: bytes, 16-bit values, the four timestamp bytes, the 8-8-8 colour sample
(spec/00_scope.md R10, R11; spec/10_state.md R32, R33). All values are unsigned (R10).
-/

namespace Sys2Proof

/-- "A byte is an 8-bit unsigned value 0..255" (R11). -/
abbrev Byte := BitVec 8

/-- A 16-bit value: the CRC register (R21) and the packed colour word (R89). -/
abbrev Half := BitVec 16

/-- A payload length as the 6-bit ports carry it (`cfg_tt_len`, `flen`, `pkt_len`; R25, R29, R36). -/
abbrev Len := BitVec 6

/-- The four opaque timestamp bytes in wire order; no number is read from them (R85, D29). -/
structure Timestamp where
  b0 : Byte
  b1 : Byte
  b2 : Byte
  b3 : Byte
  deriving DecidableEq, Repr, Inhabited

/-- The four bytes in wire order, byte 0 first (R57 (c)). -/
def Timestamp.toList (t : Timestamp) : List Byte := [t.b0, t.b1, t.b2, t.b3]

/-- An 8-8-8 colour sample, 0..255 per channel (R33). -/
structure Color where
  r : Byte
  g : Byte
  b : Byte
  deriving DecidableEq, Repr, Inhabited

end Sys2Proof
end

