-- ==== Sys2Proof/Config.lean ====
section
/-!
DEFINITION. The parameters of the hardware (spec/00_scope.md R7), the configuration straps `cfg_magic` and `TT`
(spec/10_state.md R28 to R30), the values that appear on the result port (R32, R36) and the free value of the model.
-/

namespace Sys2Proof

/-- "`PAYLOAD_MAX` ... 48" (R7). -/
def payloadMax : Nat := 48

/-- "`TS_LEN` ... 4 (timestamp bytes), fixed" (R7). -/
abbrev tsLen : Nat := 4

/-- "`TRAILER_LEN` ... 2 (CRC bytes), fixed" (R7). -/
abbrev trailerLen : Nat := 2

/-- "`FRAME_MAX` ... 56" (R7): the size of the frame buffer (R24). -/
def frameMax : Nat := 56

/-- "`FRAME_MIN` ... 8" (R7). -/
abbrev frameMin : Nat := 8

/-- The largest byte string a port with a 6-bit length can present (R37, R130, R132). -/
def portMax : Nat := 63

/-- "PIX.PACK `pixels`. ... `0 <= n <= 24`" (R184). -/
def pixelMax : Nat := 24

/-- The Type Table: the registered types with their payload lengths; every type not listed is `none` (R29). The first
entry of a type counts. -/
abbrev TypeTable := List (Byte × Len)

/-- `TT[t]`: "`none` when `t` is absent" (R10, R29). -/
def TypeTable.lookup : TypeTable → Byte → Option Len
  | [], _ => none
  | (k, l) :: rest, t => if k = t then some l else TypeTable.lookup rest t

/-- `TT[t] <= PAYLOAD_MAX` for one type; a type that is absent has no length to bound (R29, R30). -/
def TypeTable.legalAt (tt : TypeTable) (t : Byte) : Bool :=
  match tt.lookup t with
  | none => true
  | some l => decide (l.toNat ≤ payloadMax)

/-- "`0 <= TT[t] <= PAYLOAD_MAX`" (R7, R30): the length `TT[t]` of every registered type is at most 48. Only what `lookup`
gives counts: a pair of the list behind another of its type is no entry of `TT`. -/
def TypeTable.legal (tt : TypeTable) : Bool :=
  tt.all (fun e => tt.legalAt e.1)

/-- The straps: inputs that hold one value for a whole run and that no operation writes (R28, R29, R64). -/
structure Config where
  /-- `cfg_magic` (R28). -/
  magic : Byte
  /-- `TT` (R29). -/
  tt : TypeTable
  deriving DecidableEq, Repr, Inhabited

/-- "`cfg_magic` may be any byte"; a table with an entry above 48 is illegal (R30). -/
def Config.legal (c : Config) : Bool := c.tt.legal

/-- The value for this hardware: `MAGIC = 0x14`, `TT = {0x00 -> 48}` (R7, R28, R29). -/
def Config.hardware : Config := { magic := 0x14#8, tt := [(0x00#8, 48#6)] }

/-- The Packet, a value with four fields (R32). -/
structure Packet where
  type : Byte
  ts : Timestamp
  payload : List Byte
  crcValid : Bool
  deriving DecidableEq, Repr, Inhabited

/-- `pkt_len[5:0]` of the output port (R36, R97). -/
def Packet.len (p : Packet) : Len := BitVec.ofNat 6 p.payload.length

/-- What an operation presents on the result port (R36). -/
inductive Result where
  /-- The operation has no result on the port (R93's table: only a register or the state changes). -/
  | noResult
  /-- CRC.COMPUTE: "a 16-bit value". -/
  | half (v : Half)
  /-- CRC.VERIFY: "one bit". -/
  | bit (b : Bool)
  /-- PKT.ENCODE: "a frame". -/
  | frame (f : List Byte)
  /-- PKT.DECODE and an Emit event: "a Packet". -/
  | packet (p : Packet)
  /-- C565.ENC: "two bytes"; PIX.PACK: `2n` bytes; PIXEL565: the serialized word. -/
  | bytes (bs : List Byte)
  /-- C565.DEC: "three bytes". -/
  | color (c : Color)
  /-- PIX.UNPACK: a list of colour samples. -/
  | colors (cs : List Color)
  deriving DecidableEq, Repr, Inhabited

/-- The free value of the result port of an operation that ended with an error (U21: "`any value` on the result port").
It has no body, so nothing can be proved about it; the step applies it to the counter `freeCount` (log 8). -/
opaque Config.freeResult : Nat → Result

end Sys2Proof
end

