-- ==== Sys2Proof/Syntax.lean ====
section
/-!
DEFINITION. The instructions: one constructor per row of spec/opcode_table.json (spec/30_encoding.md R93, R94; R80, R84,
R89 for the table's data formats), and the form in which each reaches the block: the command port with its operand
ports (spec/10_state.md R37), bytes arriving on RX, a packed colour word.
-/

namespace Sys2Proof

/-- One row of spec/opcode_table.json each. -/
inductive Instr where
  /-- CRC.INIT (R113). -/
  | crcInit
  /-- CRC.UPDATE `b` (R114). -/
  | crcUpdate (b : Byte)
  /-- CRC.COMPUTE `s` (R115). -/
  | crcCompute (s : List Byte)
  /-- CRC.VERIFY `s, t`, `t = [t0, t1]` (R116). -/
  | crcVerify (s : List Byte) (t0 t1 : Byte)
  /-- PKT.ENCODE `type, timestamp, payload` (R130). -/
  | pktEncode (type : Byte) (ts : Timestamp) (payload : List Byte)
  /-- PKT.DECODE `frame` (R132). -/
  | pktDecode (frame : List Byte)
  /-- SYNC.START (R152). -/
  | syncStart
  /-- SYNC.STEP with the response of its transport read, `rx_data[0 ..< rx_k]` (R151, R37). -/
  | syncStep (rx : List Byte)
  /-- C565.ENC `r, g, b` (R180). -/
  | c565Enc (r g b : Byte)
  /-- C565.DEC `p`, `p = [p0, p1]` (R181). -/
  | c565Dec (p0 p1 : Byte)
  /-- PIX.PACK `pixels` (R184). -/
  | pixPack (pixels : List Color)
  /-- PIX.UNPACK `payload` (R185). -/
  | pixUnpack (bytes : List Byte)
  /-- Reserved code `0xC` (R94 (a)). -/
  | reservedC
  /-- Reserved code `0xD` (R94 (a)). -/
  | reservedD
  /-- Reserved code `0xE` (R94 (a)). -/
  | reservedE
  /-- Reserved code `0xF` (R94 (a)). -/
  | reservedF
  /-- FRAME: a wire frame with its fields and its trailer `[c0, c1]` (R80). -/
  | frame (type : Byte) (ts : Timestamp) (payload : List Byte) (c0 c1 : Byte)
  /-- FRAME.IMAGE_CHUNK: a wire frame of the registered type `0x00` (R84). -/
  | frameImageChunk (ts : Timestamp) (payload : List Byte) (c0 c1 : Byte)
  /-- PIXEL565: a packed colour word (R89). -/
  | pixel565 (r5 : BitVec 5) (g6 : BitVec 6) (b5 : BitVec 5)
  deriving DecidableEq, Repr

/-- The command port: `op[3:0]` and the operand ports (R37). A byte string is presented whole (D2). -/
structure CommandPort where
  /-- `op[3:0]` (R93). -/
  op : BitVec 4
  /-- "a byte for CRC.UPDATE". -/
  byte : Byte := 0#8
  /-- The byte string of CRC.COMPUTE and CRC.VERIFY. -/
  str : List Byte := []
  /-- The "2-byte trailer for CRC.VERIFY", first byte. -/
  t0 : Byte := 0#8
  /-- The trailer's second byte. -/
  t1 : Byte := 0#8
  /-- `type` for PKT.ENCODE. -/
  type : Byte := 0#8
  /-- `timestamp` for PKT.ENCODE. -/
  ts : Timestamp := ⟨0#8, 0#8, 0#8, 0#8⟩
  /-- `payload` "with its length (6 bits) for PKT.ENCODE". -/
  payload : List Byte := []
  /-- "a frame with its length for PKT.DECODE". -/
  frame : List Byte := []
  /-- "three bytes for C565.ENC": red. -/
  r : Byte := 0#8
  /-- Green. -/
  g : Byte := 0#8
  /-- Blue. -/
  b : Byte := 0#8
  /-- "two bytes for C565.DEC", first byte. -/
  p0 : Byte := 0#8
  /-- Second byte. -/
  p1 : Byte := 0#8
  /-- "a list of colour samples for PIX.PACK". -/
  pixels : List Color := []
  /-- "a byte string for PIX.UNPACK". -/
  pixelBytes : List Byte := []
  /-- "the response of a transport read, `rx_k[5:0]` and `rx_data[0 ..< rx_k]`". -/
  rx : List Byte := []
  deriving DecidableEq, Repr

/-- How a row of the table reaches the block: the `format` column of spec/opcode_table.json (log 12). -/
inductive Presented where
  /-- OP4: the command port. -/
  | op4 (p : CommandPort)
  /-- WIRE8: bytes arriving on RX, matched on their first byte. -/
  | wire8 (f : List Byte)
  /-- WIRE16: bytes arriving on RX, matched on their first two bytes. -/
  | wire16 (f : List Byte)
  /-- PIX16: a packed colour word. -/
  | pix16 (w : Half)
  deriving DecidableEq, Repr

end Sys2Proof
end

