-- ==== Sys2Proof/WellFormed.lean ====
section
/-!
DEFINITION. Which instructions can be presented: the operand ports' widths (spec/10_state.md R37, spec/41_packet.md
R130, R132, spec/43_color.md R184, R185) and, for a wire frame, the length its type fixes (spec/30_encoding.md R81, R84).
-/

namespace Sys2Proof

/-- Every operand fits its port, and a frame's payload has the length the Type Table gives its type. -/
def Instr.wf (cfg : Config) : Instr → Bool
  | .crcInit => true
  | .crcUpdate _ => true
  | .crcCompute _ => true
  | .crcVerify _ _ _ => true
  | .pktEncode _ _ payload => decide (payload.length ≤ portMax)
  | .pktDecode f => decide (f.length ≤ portMax)
  | .syncStart => true
  | .syncStep rx => decide (rx.length ≤ portMax)
  | .c565Enc _ _ _ => true
  | .c565Dec _ _ => true
  | .pixPack px => decide (px.length ≤ pixelMax)
  | .pixUnpack bs => decide (bs.length ≤ payloadMax)
  | .reservedC => true
  | .reservedD => true
  | .reservedE => true
  | .reservedF => true
  | .frame t _ payload _ _ => decide ((cfg.tt.lookup t).map BitVec.toNat = some payload.length)
  | .frameImageChunk _ payload _ _ => decide ((cfg.tt.lookup 0x00#8).map BitVec.toNat = some payload.length)
  | .pixel565 _ _ _ => true

end Sys2Proof
end

