-- ==== Sys2Proof/Decode.lean ====
section
/-!
DEFINITION. Byte and bit-field assembly (spec/30_encoding.md R82, R89, R90, R92), the decoder of what is presented to the
block and, after it, the encoder (spec/30_encoding.md R80 to R94, spec/opcode_table.json), and the host's table words.
-/

namespace Sys2Proof

/-- "`be16(v)` ... is the two-byte string `[v[15:8], v[7:0]]`" (R11). -/
def be16 (v : Half) : List Byte := [v.extractLsb' 8 8, v.extractLsb' 0 8]

/-- "`from_be16(s)` of a two-byte string is `{s[0], s[1]}`" (R11). -/
def fromBe16 (b0 b1 : Byte) : Half := (b0.setWidth 16 <<< 8) ||| b1.setWidth 16

/-- "`s[i ..< j]` is the sub-string of bytes `i` to `j-1`" (R11). -/
def slice (s : List Byte) (i j : Nat) : List Byte := (s.drop i).take (j - i)

/-- `s[i]`, used only for `i < |s|`. -/
def byteAt (s : List Byte) (i : Nat) : Byte := s.getD i 0#8

/-- "`w[15:11] = r5`" (R89). -/
def field5R (w : Half) : BitVec 5 := w.extractLsb' 11 5

/-- "`w[10:5] = g6`" (R89). -/
def field6G (w : Half) : BitVec 6 := w.extractLsb' 5 6

/-- "`w[4:0] = b5`" (R89). -/
def field5B (w : Half) : BitVec 5 := w.extractLsb' 0 5

/-- "pack as `(r5<<11)|(g6<<5)|b5`" (R89), the concatenation `{r5, g6, b5}` of R92 (c). -/
def pack565 (r5 : BitVec 5) (g6 : BitVec 6) (b5 : BitVec 5) : Half :=
  (r5.setWidth 16 <<< 11) ||| (g6.setWidth 16 <<< 5) ||| b5.setWidth 16

/-- The fields of a frame after its magic byte (R80). -/
structure FrameFields where
  type : Byte
  ts : Timestamp
  payload : List Byte
  c0 : Byte
  c1 : Byte
  deriving DecidableEq, Repr

/-- Why a byte string is not a whole frame of a registered type. -/
inductive FrameError where
  /-- Shorter than 2 bytes, or not `8 + TT[type]` bytes (R135). -/
  | badLength (n : Nat)
  /-- `frame[0] != cfg_magic` (R133). -/
  | badMagic (b : Byte)
  /-- `TT[frame[1]] = none` (R134). -/
  | unknownType (t : Byte)
  deriving DecidableEq, Repr

/-- The fields of a frame at their fixed offsets, `L = TT[f[1]]` (R82). -/
def sliceFrame (f : List Byte) (l : Nat) : FrameFields :=
  { type := byteAt f 1
    ts := ⟨byteAt f 2, byteAt f 3, byteAt f 4, byteAt f 5⟩
    payload := slice f 6 (6 + l)
    c0 := byteAt f (6 + l)
    c1 := byteAt f (7 + l) }

/-- The checks on a frame in the order of R212 (length below 2, magic, type, exact length), then the slices of R82. -/
def parseFrame (cfg : Config) (f : List Byte) : Except FrameError FrameFields :=
  if f.length < 2 then .error (.badLength f.length)
  else if byteAt f 0 ≠ cfg.magic then .error (.badMagic (byteAt f 0))
  else match cfg.tt.lookup (byteAt f 1) with
    | none => .error (.unknownType (byteAt f 1))
    | some l =>
      if f.length ≠ frameMin + l.toNat then .error (.badLength f.length)
      else .ok (sliceFrame f l.toNat)

/-- The bytes of a frame on the wire: magic, type, timestamp, payload, trailer (R80). -/
def frameBytes (cfg : Config) (ff : FrameFields) : List Byte :=
  [cfg.magic, ff.type] ++ ff.ts.toList ++ ff.payload ++ [ff.c0, ff.c1]

/-- Why a presentation is no instruction. -/
inductive DecodeError where
  /-- PKT.ENCODE: the payload does not fit a 6-bit length (R130). -/
  | payloadTooLong (n : Nat)
  /-- PKT.DECODE: the frame does not fit a 6-bit length (R132). -/
  | frameTooLong (n : Nat)
  /-- SYNC.STEP: the response does not fit `rx_k[5:0]` (R37). -/
  | responseTooLong (n : Nat)
  /-- PIX.PACK: more than 24 samples (R184). -/
  | tooManyPixels (n : Nat)
  /-- PIX.UNPACK: more than 48 bytes (R185). -/
  | pixelBytesTooLong (n : Nat)
  /-- The bytes on the wire are no whole frame of a registered type (R94 (b), (c)). -/
  | notAFrame (e : FrameError)
  /-- WIRE16: the second byte is not the registered type `0x00` of FRAME.IMAGE_CHUNK (R84). -/
  | notImageChunk (t : Byte)
  deriving DecidableEq, Repr

/-- The command port: the operation its 4-bit code selects (R93's table), with that operation's operand ports. -/
def decodeCommand (p : CommandPort) : Except DecodeError Instr :=
  match p.op.toNat with
  | 0x0 => .ok .crcInit
  | 0x1 => .ok (.crcUpdate p.byte)
  | 0x2 => .ok (.crcCompute p.str)
  | 0x3 => .ok (.crcVerify p.str p.t0 p.t1)
  | 0x4 =>
    if p.payload.length ≤ portMax then .ok (.pktEncode p.type p.ts p.payload)
    else .error (.payloadTooLong p.payload.length)
  | 0x5 => if p.frame.length ≤ portMax then .ok (.pktDecode p.frame) else .error (.frameTooLong p.frame.length)
  | 0x6 => .ok .syncStart
  | 0x7 => if p.rx.length ≤ portMax then .ok (.syncStep p.rx) else .error (.responseTooLong p.rx.length)
  | 0x8 => .ok (.c565Enc p.r p.g p.b)
  | 0x9 => .ok (.c565Dec p.p0 p.p1)
  | 0xA => if p.pixels.length ≤ pixelMax then .ok (.pixPack p.pixels) else .error (.tooManyPixels p.pixels.length)
  | 0xB =>
    if p.pixelBytes.length ≤ payloadMax then .ok (.pixUnpack p.pixelBytes)
    else .error (.pixelBytesTooLong p.pixelBytes.length)
  | 0xC => .ok .reservedC
  | 0xD => .ok .reservedD
  | 0xE => .ok .reservedE
  | _ => .ok .reservedF

/-- Bytes on the wire as FRAME (R80, R88). -/
def decodeWire8 (cfg : Config) (f : List Byte) : Except DecodeError Instr :=
  match parseFrame cfg f with
  | .error e => .error (.notAFrame e)
  | .ok ff => .ok (.frame ff.type ff.ts ff.payload ff.c0 ff.c1)

/-- Bytes on the wire as FRAME.IMAGE_CHUNK: a frame whose type is `0x00` (R84). -/
def decodeWire16 (cfg : Config) (f : List Byte) : Except DecodeError Instr :=
  match parseFrame cfg f with
  | .error e => .error (.notAFrame e)
  | .ok ff =>
    if ff.type = 0x00#8 then .ok (.frameImageChunk ff.ts ff.payload ff.c0 ff.c1)
    else .error (.notImageChunk ff.type)

/-- The instruction a presentation stands for, or why it is none. -/
def decode (cfg : Config) : Presented → Except DecodeError Instr
  | .op4 p => decodeCommand p
  | .wire8 f => decodeWire8 cfg f
  | .wire16 f => decodeWire16 cfg f
  | .pix16 w => .ok (.pixel565 (field5R w) (field6G w) (field5B w))

/-- The presentation of an instruction: its code and operands on the ports (unused ports zero), its bytes on the wire, or
its colour word (R80, R89, R93). -/
def encode (cfg : Config) : Instr → Presented
  | .crcInit => .op4 { op := 0x0#4 }
  | .crcUpdate b => .op4 { op := 0x1#4, byte := b }
  | .crcCompute s => .op4 { op := 0x2#4, str := s }
  | .crcVerify s t0 t1 => .op4 { op := 0x3#4, str := s, t0 := t0, t1 := t1 }
  | .pktEncode type ts payload => .op4 { op := 0x4#4, type := type, ts := ts, payload := payload }
  | .pktDecode f => .op4 { op := 0x5#4, frame := f }
  | .syncStart => .op4 { op := 0x6#4 }
  | .syncStep rx => .op4 { op := 0x7#4, rx := rx }
  | .c565Enc r g b => .op4 { op := 0x8#4, r := r, g := g, b := b }
  | .c565Dec p0 p1 => .op4 { op := 0x9#4, p0 := p0, p1 := p1 }
  | .pixPack px => .op4 { op := 0xA#4, pixels := px }
  | .pixUnpack bs => .op4 { op := 0xB#4, pixelBytes := bs }
  | .reservedC => .op4 { op := 0xC#4 }
  | .reservedD => .op4 { op := 0xD#4 }
  | .reservedE => .op4 { op := 0xE#4 }
  | .reservedF => .op4 { op := 0xF#4 }
  | .frame type ts payload c0 c1 => .wire8 (frameBytes cfg ⟨type, ts, payload, c0, c1⟩)
  | .frameImageChunk ts payload c0 c1 => .wire16 (frameBytes cfg ⟨0x00#8, ts, payload, c0, c1⟩)
  | .pixel565 r5 g6 b5 => .pix16 (pack565 r5 g6 b5)

/-- A frame of the table: the given first bytes, then zeros up to the length its type gives under `cfg` (56 bytes where
the type is not registered). -/
def tableFrame (cfg : Config) (start : List Byte) : List Byte :=
  let l := ((cfg.tt.lookup (byteAt start 1)).map BitVec.toNat).getD payloadMax
  start ++ List.replicate (frameMin + l - start.length) 0#8

/-- The presentation of a table word: 8 bits below `0x10` are `op[3:0]` with every operand port zero, other 8-bit words
the first byte of a frame; the 16-bit word of FRAME.IMAGE_CHUNK (magic in bits 15:8, `0x00` in bits 7:0) is the first two
bytes of a frame, every other 16-bit word a colour word (log 12). -/
def tableWord (cfg : Config) (nbits w : Nat) : Presented :=
  if nbits ≤ 8 then
    if w < 16 then .op4 { op := BitVec.ofNat 4 w }
    else .wire8 (tableFrame cfg [BitVec.ofNat 8 w])
  else if w = cfg.magic.toNat * 256 then .wire16 (tableFrame cfg [BitVec.ofNat 8 (w / 256), BitVec.ofNat 8 w])
  else .pix16 (BitVec.ofNat 16 w)

/-- The instruction the decoder reads from a word of spec/opcode_table.json, under this hardware's configuration. -/
def decodeTableWord (nbits w : Nat) : Option Instr :=
  match decode Config.hardware (tableWord Config.hardware nbits w) with
  | .ok i => some i
  | .error _ => none

end Sys2Proof
end

