-- ==== Sys2Proof/Machine/State.lean ====
section
/-!
DEFINITION. The state of the block (spec/10_state.md R20 to R38), its errors and events (spec/60_exceptions.md R200),
the stops of the model and the state after reset (R35, R240).
-/

namespace Sys2Proof.Machine

/-- The synchronizer state register `st`: "exactly five values" (R22). -/
inductive SyncState where
  | seekMagic
  | readType
  | readBody
  | emit
  /-- `END`. -/
  | ended
  deriving DecidableEq, Repr

/-- The sub-phase `phase` of `READ_BODY` (R23). -/
inductive Phase where
  /-- `TS`: the timestamp is read next. -/
  | ts
  /-- `PL`: the payload is read next. -/
  | pl
  /-- `TR`: the trailer is read next. -/
  | tr
  deriving DecidableEq, Repr

/-- `where` of a DropShort event: "one of TYPE, TS, PL, TR" (R168). -/
inductive ShortAt where
  | type
  | ts
  | pl
  | tr
  deriving DecidableEq, Repr

/-- The events of SYNC.STEP (R168). -/
inductive Event where
  | emit (p : Packet)
  | reportUnknownType (t : Byte)
  | dropShort (at_ : ShortAt) (got wanted : Nat)
  /-- `End`. -/
  | ended
  deriving DecidableEq, Repr

/-- The errors of an operation with what they record (R200 to R202, R208 to R210). -/
inductive OpError where
  | malformedPayload (type : Byte) (len : Nat)
  | unknownType (t : Byte)
  | badMagic (b : Byte)
  | badLength (n : Nat)
  | illegalOp (op : BitVec 4)
  deriving DecidableEq, Repr

/-- What the environment does next (R37, R38; log 1). -/
inductive Input where
  /-- A presentation in one of the formats of spec/opcode_table.json. -/
  | present (p : Presented)
  /-- The reset input is asserted (R240). -/
  | reset
  /-- The application asks for an encoded frame to be sent; the transport answers `bytes_written` (R54, D27). -/
  | send (frame : List Byte) (written : Nat)
  /-- A timeout of the transport: a segment boundary of RX (R66). -/
  | timeout
  deriving DecidableEq, Repr

/-- The frame buffer's index space `fb[0]` to `fb[55]` (R24, R50 (c)), the one addressed memory of the block: cells with
rising indices. An unlisted index "hold[s] no value". -/
abbrev Memory := List Host.Cell

/-- The canonical form: indices strictly rising, each below 56. -/
abbrev Memory.wf (m : Memory) : Prop := m.Pairwise (fun a b => a.1 < b.1) ∧ ∀ c ∈ m, c.1 < frameMax

/-- Why the machine stops with a fault. -/
inductive Fault where
  /-- Raised by SYNC.STEP in `EMIT` when it reads a frame buffer byte that holds no value (R24, R35: "faults or refuses on
  a read of it"). Safe: no run reaches it (R165). -/
  | frameBufferNoValue
  /-- Raised by SYNC.STEP when it writes outside `fb[0]` to `fb[55]` (R24, R50 (c)). Safe: no run reaches it. -/
  | frameBufferRange
  /-- Raised by SYNC.STEP in `EMIT` when the buffer is no frame (R158: "which cannot fail here"). Safe: no run reaches it
  (R165). -/
  | emitNotAFrame
  deriving DecidableEq, Repr

/-- Why the model gives a situation no meaning. -/
inductive Refusal where
  /-- Raised by an arm of exec whose instruction has no meaning yet (none in this model). Safe. -/
  | notModelled (mnemonic : String)
  /-- Raised by PKT.ENCODE, PKT.DECODE, SYNC.STEP, the wire formats and a transport write when the Type Table gives a type a
  length above 48 (R30, U3: `refuse`). Safe. -/
  | illegalConfig
  /-- Raised by SYNC.STEP when the response is longer than the read it issued (R51: "`0 <= |r| <= n`"; U9: `refuse`). Safe:
  the channel of the model never answers so. -/
  | transportOverrun
  /-- Raised by step when a command port presents an operand its ports cannot carry (R37, R184, R185). Safe. -/
  | notPresentable (e : DecodeError)
  /-- Raised by a transport write while a scan is in progress (R62: "it may refuse a transport write while `st` is neither
  `SEEK_MAGIC` with `fill = 0` nor `END`"; U15: `refuse`). Safe. -/
  | sendDuringScan
  /-- Raised by a transport write of bytes that are no frame PKT.ENCODE produces (R54: "issues a write only to send an
  encoded frame produced by PKT.ENCODE"). Safe. -/
  | notAnEncodedFrame
  deriving DecidableEq, Repr

/-- The state of the core (R20), its configuration straps (R28, R29), its output ports (R36), and its environment (R34). -/
structure State where
  /-- `cfg_magic` and `TT` (R28, R29). -/
  cfg : Config
  /-- The CRC register (R21). -/
  crc : Half
  /-- The synchronizer state register (R22). -/
  st : SyncState
  /-- The sub-phase of `READ_BODY` (R23). -/
  phase : Phase
  /-- The frame buffer (R24). -/
  fb : Memory
  /-- The fill count, 6 bits (R24). -/
  fill : BitVec 6
  /-- The type byte of the frame in progress (R25). -/
  ftype : Byte
  /-- Its payload length, 6 bits (R25). -/
  flen : Len
  /-- The result port (R36). -/
  result : Result
  /-- `err_code` with its information; none is code `0x0` (R200). -/
  err : Option OpError
  /-- `ev_code` with its information; none is code `0x0` (R200). -/
  event : Option Event
  /-- The transport read request of the last operation: its size, or none (R36, R51). -/
  rxReq : Option Nat
  /-- `bytes_written` of the last transport write, as the transport returned it (R54, U8). -/
  txCount : Option Nat
  /-- RX: the received bytes not yet read, a segment boundary standing for one timeout (R50 (a), R66). -/
  rx : List (List Byte)
  /-- TX: the byte strings offered, oldest first (R50 (b), R54). -/
  tx : List (List Byte)
  /-- The events the scans have produced, oldest first (R34, R168). -/
  events : List Event
  /-- What the environment does next, oldest first (R38). -/
  inputs : List Input
  /-- The model's own: how many free values have been read (U21; log 8). -/
  freeCount : Nat
  deriving DecidableEq, Repr

/-- The state after reset: "`crc = 0xFFFF`", "`st = SEEK_MAGIC`", "`phase = TS`", "`fill = 0`", no byte in `fb` (R35); the
straps as this hardware has them (R28, R29). `ftype`, `flen`, the ports, the environment and the counter are the model's
own values (log 5, 6, 8). -/
def State.reset : State :=
  { cfg := Config.hardware
    crc := 0xFFFF#16
    st := .seekMagic
    phase := .ts
    fb := []
    fill := 0#6
    ftype := 0#8
    flen := 0#6
    result := .noResult
    err := none
    event := none
    rxReq := none
    txCount := none
    rx := []
    tx := []
    events := []
    inputs := []
    freeCount := 0 }

/-- The outcome of one operation. -/
abbrev Outcome := Host.Outcome State Fault Refusal

end Sys2Proof.Machine
end

