-- ==== Sys2Proof/Machine/Ops.lean ====
section
/-!
DEFINITION. The named operations over the frame buffer, the ports and the Transport Channel, raising an error as one shared
operation (spec/60_exceptions.md R213), the reset input (spec/70_reset_and_hazards.md R240) and the transport write
(spec/20_memory.md R54).
-/

namespace Sys2Proof.Machine

/-! ### The frame buffer -/

/-- The byte at an index; none where it holds no value (R24). -/
def Memory.read : Memory → Nat → Option Byte
  | [], _ => none
  | (k, b) :: m, a => if k = a then some b else Memory.read m a

/-- `fb[a] <- b`, keeping the canonical form. -/
def Memory.write : Memory → Nat → Byte → Memory
  | [], a, b => [(a, b)]
  | (k, v) :: m, a, b =>
    if a < k then (a, b) :: (k, v) :: m
    else if a = k then (a, b) :: m
    else (k, v) :: Memory.write m a b

/-- `fb[a ..< a + |bs|] <- bs`. -/
def Memory.writeBytes : Memory → Nat → List Byte → Memory
  | m, _, [] => m
  | m, a, b :: bs => Memory.writeBytes (m.write a b) (a + 1) bs

/-- The bytes below an index: "bytes at index `fill` and above hold no value" (R24). -/
def Memory.below (m : Memory) (n : Nat) : Memory := m.filter (fun c => decide (c.1 < n))

/-- `fb[a ..< a + n]`; none where one of the bytes holds no value. -/
def Memory.readBytes (m : Memory) (a : Nat) : Nat → Option (List Byte)
  | 0 => some []
  | n + 1 =>
    match m.read a, Memory.readBytes m (a + 1) n with
    | some b, some bs => some (b :: bs)
    | _, _ => none

/-- `fill <- n`; the bytes at `n` and above hold no value from then on (R24). -/
def State.setFill (n : Nat) (s : State) : State :=
  { s with fill := BitVec.ofNat 6 n, fb := s.fb.below n }

/-- `fb[a ..< a + |bs|] <- bs; fill <- a + |bs|`, the form of every write of `42_sync.md` R153 to R157. -/
def State.storeFrame (a : Nat) (bs : List Byte) (s : State) : Except Fault State :=
  if a + bs.length ≤ frameMax then
    .ok ({ s with fb := s.fb.writeBytes a bs }.setFill (a + bs.length))
  else .error .frameBufferRange

/-- `fb[0 ..< fill]` (R158). -/
def State.frameInProgress (s : State) : Except Fault (List Byte) :=
  match s.fb.readBytes 0 s.fill.toNat with
  | some f => .ok f
  | none => .error .frameBufferNoValue

/-- Go on with a value, or stop with its fault. -/
def orFault {α : Type} (x : Except Fault α) (k : α → Outcome) : Outcome :=
  match x with
  | .ok a => k a
  | .error r => .fault r

/-! ### The ends of an operation -/

/-- An operation ends without error with a result: `err_code` and `ev_code` are `0x0`, no transport read was issued (R200). -/
def State.complete (r : Result) (s : State) : State :=
  { s with result := r, err := none, event := none, rxReq := none }

/-- `raise E(info)`: "The operation ends at that point; it produces no result", "`err_code` takes the code of `E`", "no
state of `10_state.md` rule R20 changes" (R213). The result port holds a free value (U21). -/
def State.raise (e : OpError) (s : State) : State :=
  { s with
    result := Config.freeResult s.freeCount
    err := some e
    event := none
    rxReq := none
    freeCount := s.freeCount + 1 }

/-- A SYNC.STEP ends: the read it issued, its event or none, and the Packet of an Emit event (R36, R168). -/
def State.produce (req : Option Nat) (ev : Option Event) (r : Result) (s : State) : State :=
  { s with result := r, err := none, event := ev, rxReq := req, events := s.events ++ ev.toList }

/-- An operation that reads the configuration has a meaning only for a legal table (R30, U3). -/
def whenLegal (s : State) (o : Outcome) : Outcome :=
  if s.cfg.legal then o else .refused .illegalConfig

/-! ### The Transport Channel -/

/-- "`MemRead(RX, n)` with `n >= 1`: if no segment remains, return `[]`; otherwise, if the first segment holds at least `n`
bytes, remove and return its first `n` bytes; otherwise remove the first segment and return all the bytes it still held"
(R66). -/
def channelRead : List (List Byte) → Nat → List Byte × List (List Byte)
  | [], _ => ([], [])
  | seg :: rest, n => if n ≤ seg.length then (seg.take n, seg.drop n :: rest) else (seg, rest)

/-- Bytes arrive: they follow the last byte received, with no timeout between (log 4). -/
def channelArrive : List (List Byte) → List Byte → List (List Byte)
  | [], bs => [bs]
  | [seg], bs => [seg ++ bs]
  | seg :: seg' :: rest, bs => seg :: channelArrive (seg' :: rest) bs

/-- A timeout: "a boundary between two segments stands for one timeout" (R66). -/
def channelTimeout : List (List Byte) → List (List Byte)
  | [] => [[], []]
  | seg :: rest => (seg :: rest) ++ [[]]

/-- Bytes arrive on RX; the core's state and ports do not change (R34, R50 (a)). -/
def State.arrive (bs : List Byte) (s : State) : State := { s with rx := channelArrive s.rx bs }

/-- The size of the transport read the next SYNC.STEP issues (R52); none in `EMIT` and `END` (R158, R159), and none for a
payload of length 0 (R52: "the payload read is not issued"). -/
def State.readSize (s : State) : Option Nat :=
  match s.st with
  | .seekMagic => some 1
  | .readType => some 1
  | .readBody =>
    match s.phase with
    | .ts => some tsLen
    | .pl => if s.flen = 0#6 then none else some s.flen.toNat
    | .tr => some trailerLen
  | .emit => none
  | .ended => none

/-- The transport drives `rx_k` and `rx_data` of a SYNC.STEP that issues a read (R37, R51, R151); every other presentation
is as the application left it. -/
def answered (p : Presented) (s : State) : Presented × State :=
  match p with
  | .op4 c =>
    if c.op = 0x7#4 then
      match s.readSize with
      | some n => (.op4 { c with rx := (channelRead s.rx n).1 }, { s with rx := (channelRead s.rx n).2 })
      | none => (.op4 { c with rx := [] }, s)
    else (p, s)
  | .wire8 _ => (p, s)
  | .wire16 _ => (p, s)
  | .pix16 _ => (p, s)

/-! ### Reset and transmission -/

/-- The reset input: "puts every piece of state at the value of `10_state.md` rule R35"; "does not touch the Transport
Channel" and "does not touch the configuration straps" (R240). The records, the pending inputs and the counter stay too (log
19), and so does `bytes_written`, the transport's answer to the last write, of which the spec says nothing here (log 26). -/
def State.assertReset (s : State) : State :=
  { State.reset with
    cfg := s.cfg
    rx := s.rx
    tx := s.tx
    txCount := s.txCount
    events := s.events
    inputs := s.inputs
    freeCount := s.freeCount }

/-- "`st` is neither `SEEK_MAGIC` with `fill = 0` nor `END`" (R62): a scan is in progress. -/
def State.scanning (s : State) : Bool :=
  !(decide (s.st = .ended) || (decide (s.st = .seekMagic) && decide (s.fill = 0#6)))

end Sys2Proof.Machine
end

