-- ==== Sys2Proof/Machine/Operands.lean ====
section
/-!
DEFINITION. The values operations compute from their operands: the CRC function (spec/40_crc.md R110 to R115), the bytes a
checksum covers and a frame's assembly (spec/30_encoding.md R82, R87; spec/41_packet.md R130), the colour fields
(spec/30_encoding.md R92 (d), (e); spec/43_color.md R180, R181).
-/

namespace Sys2Proof.Machine

/-! ### The CRC -/

/-- "initial register `0xFFFF`" (R110). -/
def crcInitial : Half := 0xFFFF#16

/-- "polynomial `0x1021`" (R110). -/
def crcPoly : Half := 0x1021#16

/-- "if the top bit of the register is set, shift left and XOR with the polynomial; otherwise shift left; mask to 16 bits"
(R111). -/
def crcBitStep (c : Half) : Half := if c.getLsbD 15 then (c <<< 1) ^^^ crcPoly else c <<< 1

/-- `crc_bit_step` applied `n` times. -/
def crcBitSteps : Nat → Half → Half
  | 0, c => c
  | n + 1, c => crcBitSteps n (crcBitStep c)

/-- "`c0 = c ^ {b, 0x00}` (that is `c ^ (zext_16(b) << 8)`", then eight bit steps (R112). -/
def crcByteStep (c : Half) (b : Byte) : Half := crcBitSteps 8 (c ^^^ (b.setWidth 16 <<< 8))

/-- The register run over a byte string from `c`, `s[0]` first (R114, R115). -/
def crcRun (c : Half) : List Byte → Half
  | [] => c
  | b :: s => crcRun (crcByteStep c b) s

/-- "`crc16(s) = fold(crc_byte_step, 0xFFFF, s)`" (R115). -/
def crc16 (s : List Byte) : Half := crcRun crcInitial s

/-! ### Frames -/

/-- The bytes the checksum of a frame covers: "everything except the trailer itself" (R117, R130 step 2). -/
def coveredBytes (magic type : Byte) (ts : Timestamp) (payload : List Byte) : List Byte :=
  [magic, type] ++ ts.toList ++ payload

/-- "`result <- body ++ be16(c)`" (R130 step 3). -/
def encodedFrame (cfg : Config) (type : Byte) (ts : Timestamp) (payload : List Byte) : List Byte :=
  coveredBytes cfg.magic type ts payload ++ be16 (crc16 (coveredBytes cfg.magic type ts payload))

/-- "`if TT[type] = none or TT[type] != |payload|`" fails (R130 step 1). -/
def payloadMatches (cfg : Config) (type : Byte) (payload : List Byte) : Bool :=
  match cfg.tt.lookup type with
  | none => false
  | some l => decide (l.toNat = payload.length)

/-! ### Colours -/

/-- "`r5 = r[7:3]`", "`b5 = b[7:3]`" (R92 (d)). -/
def trunc5 (v : Byte) : BitVec 5 := v.extractLsb' 3 5

/-- "`g6 = g[7:2]`" (R92 (d)). -/
def trunc6 (v : Byte) : BitVec 6 := v.extractLsb' 2 6

/-- "`(r5 << 3) | (r5 >> 2)` (`= {r5, r5[4:2]}`)" (R181, R92 (e)). -/
def expand5 (v : BitVec 5) : Byte := (v.setWidth 8 <<< 3) ||| (v.setWidth 8 >>> 2)

/-- "`(g6 << 2) | (g6 >> 4)` (`= {g6, g6[5:4]}`)" (R181, R92 (e)). -/
def expand6 (v : BitVec 6) : Byte := (v.setWidth 8 <<< 2) ||| (v.setWidth 8 >>> 4)

/-- One sample to its packed word (R180). -/
def colorWord (c : Color) : Half := pack565 (trunc5 c.r) (trunc6 c.g) (trunc5 c.b)

/-- One sample to its two bytes, "`result <- be16(w)`" (R180). -/
def encodeColor (c : Color) : List Byte := be16 (colorWord c)

/-- A packed word to one sample (R181). -/
def decodeWord (w : Half) : Color := ⟨expand5 (field5R w), expand6 (field6G w), expand5 (field5B w)⟩

/-- Two bytes to one sample (R181). -/
def decodeColor (p0 p1 : Byte) : Color := decodeWord (fromBe16 p0 p1)

/-- "pixel `i` at bytes `2i` and `2i+1`" (R184). -/
def packPixels : List Color → List Byte
  | [] => []
  | c :: cs => encodeColor c ++ packPixels cs

/-- "`[C565.DEC(payload[2i ..< 2i+2]) for i in 0 ..< m/2]`" (R185). -/
def unpackPixels : List Byte → List Color
  | p0 :: p1 :: rest => decodeColor p0 p1 :: unpackPixels rest
  | _ => []

end Sys2Proof.Machine
end

