-- ==== Sys2Proof/Machine/Flags.lean ====
section
/-!
DEFINITION. The Boolean results (spec/10_state.md R27), the Packet a frame decodes to with its `crc_valid`
(spec/41_packet.md R132, R137), and the numeric codes of the state registers, errors and events (R22, R23, R200).
-/

namespace Sys2Proof.Machine

/-- "`result <- (be16(crc16(s)) = t)`" (R116). -/
def verify (s : List Byte) (t0 t1 : Byte) : Bool := decide (be16 (crc16 s) = [t0, t1])

/-- The error with which PKT.DECODE ends for a byte string that is no frame (R133 to R135). -/
def frameErrorOf : FrameError → OpError
  | .badLength n => .badLength n
  | .badMagic b => .badMagic b
  | .unknownType t => .unknownType t

/-- The Packet of a frame's fields: "`crc_valid = (be16(crc16(frame[0 ..< 6+L])) = trailer)`" (R132 steps 4 and 5). -/
def packetOf (f : List Byte) (ff : FrameFields) : Packet :=
  { type := ff.type
    ts := ff.ts
    payload := ff.payload
    crcValid := verify (slice f 0 (6 + ff.payload.length)) ff.c0 ff.c1 }

/-- PKT.DECODE as a function of the configuration and the frame (R132, R139). -/
def decodePacket (cfg : Config) (f : List Byte) : Except OpError Packet :=
  match parseFrame cfg f with
  | .error e => .error (frameErrorOf e)
  | .ok ff => .ok (packetOf f ff)

/-- PKT.ENCODE as a function of the configuration and its operands (R130, R139). -/
def encodePacket (cfg : Config) (type : Byte) (ts : Timestamp) (payload : List Byte) : Except OpError (List Byte) :=
  if payloadMatches cfg type payload then .ok (encodedFrame cfg type ts payload)
  else .error (.malformedPayload type payload.length)

/-- "an encoded frame produced by PKT.ENCODE" (R54): a whole frame of a registered type whose trailer checks (R140). -/
def isEncodedFrame (cfg : Config) (f : List Byte) : Bool :=
  match decodePacket cfg f with
  | .ok p => p.crcValid
  | .error _ => false

/-- "`crc_out[15:0]`, always equal to `crc`" (R36). -/
def State.crcOut (s : State) : Half := s.crc

/-- The 3-bit code of `st` (R22). -/
def SyncState.code : SyncState → BitVec 3
  | .seekMagic => 0#3
  | .readType => 1#3
  | .readBody => 2#3
  | .emit => 3#3
  | .ended => 4#3

/-- The 2-bit code of `phase` (R23). -/
def Phase.code : Phase → BitVec 2
  | .ts => 0#2
  | .pl => 1#2
  | .tr => 2#2

/-- The code of an error (R200). -/
def OpError.code : OpError → BitVec 4
  | .malformedPayload _ _ => 0x1#4
  | .unknownType _ => 0x2#4
  | .badMagic _ => 0x3#4
  | .badLength _ => 0x4#4
  | .illegalOp _ => 0x5#4

/-- The code of an event (R200). -/
def Event.code : Event → BitVec 4
  | .emit _ => 0x8#4
  | .reportUnknownType _ => 0x9#4
  | .dropShort _ _ _ => 0xA#4
  | .ended => 0xB#4

/-- `err_code[3:0]`: "Code `0x0` ... means the operation completed without error" (R200). -/
def State.errCode (s : State) : BitVec 4 :=
  match s.err with
  | none => 0x0#4
  | some e => e.code

/-- `ev_code[3:0]`: "code `0x0` ... means the step produced no event" (R200). -/
def State.evCode (s : State) : BitVec 4 :=
  match s.event with
  | none => 0x0#4
  | some e => e.code

end Sys2Proof.Machine
end

