-- ==== Sys2Proof/Machine/ColorCodec.lean ====
section
/-!
DEFINITION. The Color Codec: C565.ENC, C565.DEC, PIX.PACK, PIX.UNPACK (spec/43_color.md R180 to R185), and the packed colour
word PIXEL565 (spec/30_encoding.md R89, R90).
-/

namespace Sys2Proof.Machine

/-- C565.ENC `r, g, b` (R180). -/
def execC565Enc (r g b : Byte) (s : State) : Outcome :=
  .next (s.complete (.bytes (encodeColor ⟨r, g, b⟩)))

/-- C565.DEC `p` (R181). -/
def execC565Dec (p0 p1 : Byte) (s : State) : Outcome :=
  .next (s.complete (.color (decodeColor p0 p1)))

/-- PIX.PACK `pixels` (R184). -/
def execPixPack (pixels : List Color) (s : State) : Outcome :=
  .next (s.complete (.bytes (packPixels pixels)))

/-- PIX.UNPACK `bs`: "`if m is odd then raise BadLength(m)`" (R185). -/
def execPixUnpack (bs : List Byte) (s : State) : Outcome :=
  if bs.length % 2 = 1 then .next (s.raise (.badLength bs.length))
  else .next (s.complete (.colors (unpackPixels bs)))

/-- PIXEL565: the word `w = {r5, g6, b5}` serialized big-endian, "first byte `{r5, g6[5:3]}`", "second byte `{g6[2:0], b5}`"
(R89, R90, R92 (c); log 11). It is no operation of R93; that it ends like one, with `err_code` and `ev_code` `0x0` and no read
request in place of what these ports showed (U21, R213), is the model's choice (log 11). -/
def execPixel565 (r5 : BitVec 5) (g6 : BitVec 6) (b5 : BitVec 5) (s : State) : Outcome :=
  .next (s.complete (.bytes (be16 (pack565 r5 g6 b5))))

end Sys2Proof.Machine
end

