-- ==== Sys2Proof/Machine/Crc.lean ====
section
/-!
DEFINITION. The CRC Engine: CRC.INIT, CRC.UPDATE, CRC.COMPUTE, CRC.VERIFY (spec/40_crc.md R113 to R116).
-/

namespace Sys2Proof.Machine

/-- CRC.INIT: "`crc <- 0xFFFF`" (R113). -/
def execCrcInit (s : State) : Outcome :=
  .next ({ s with crc := crcInitial }.complete .noResult)

/-- CRC.UPDATE `b`: "`crc <- crc_byte_step(crc, b)`" (R114). -/
def execCrcUpdate (b : Byte) (s : State) : Outcome :=
  .next ({ s with crc := crcByteStep s.crc b }.complete .noResult)

/-- CRC.COMPUTE `str`: "`crc <- crc16(s)`; result port `= crc16(s)`" (R115). -/
def execCrcCompute (str : List Byte) (s : State) : Outcome :=
  .next ({ s with crc := crc16 str }.complete (.half (crc16 str)))

/-- CRC.VERIFY `str, t`: "`crc <- crc16(s); result <- (be16(crc16(s)) = t)`" (R116). -/
def execCrcVerify (str : List Byte) (t0 t1 : Byte) (s : State) : Outcome :=
  .next ({ s with crc := crc16 str }.complete (.bit (verify str t0 t1)))

end Sys2Proof.Machine
end

