-- ==== Sys2Proof/Machine/Packet.lean ====
section
/-!
DEFINITION. The Packet Model: PKT.ENCODE and PKT.DECODE (spec/41_packet.md R130 to R137), and the transport write of an
encoded frame (spec/20_memory.md R54, R62).
-/

namespace Sys2Proof.Machine

/-- PKT.ENCODE: the frame, or MalformedPayload "before anything is computed or sent" (R130, R131). -/
def execPktEncode (type : Byte) (ts : Timestamp) (payload : List Byte) (s : State) : Outcome :=
  whenLegal s <|
    match encodePacket s.cfg type ts payload with
    | .ok f => .next (s.complete (.frame f))
    | .error e => .next (s.raise e)

/-- PKT.DECODE: the Packet "regardless of `crc_valid`", or BadLength, BadMagic, UnknownType (R132 to R135, R137). -/
def execPktDecode (f : List Byte) (s : State) : Outcome :=
  whenLegal s <|
    match decodePacket s.cfg f with
    | .ok p => .next (s.complete (.packet p))
    | .error e => .next (s.raise e)

/-- `MemWrite(TX, |f|, f)`: "A model records the offered byte string as the effect" (R54); the count the transport returns is
"returned to the caller and not interpreted by the core" (D27). It is no operation of the command port: `err_code`, `ev_code`
and the result port stay (log 16). -/
def sendFrame (f : List Byte) (written : Nat) (s : State) : Outcome :=
  whenLegal s <|
    if s.scanning then .refused .sendDuringScan
    else if isEncodedFrame s.cfg f then .next { s with tx := s.tx ++ [f], txCount := some written }
    else .refused .notAnEncodedFrame

end Sys2Proof.Machine
end

