-- ==== Sys2Proof/Machine/Reserved.lean ====
section
/-!
DEFINITION. The reserved operation-select codes: "selecting one raises IllegalOp and changes no state"
(spec/30_encoding.md R94 (a), spec/60_exceptions.md R210).
-/

namespace Sys2Proof.Machine

/-- Code `0xC` (R94, R210). -/
def execReservedC (s : State) : Outcome := .next (s.raise (.illegalOp 0xC#4))

/-- Code `0xD` (R94, R210). -/
def execReservedD (s : State) : Outcome := .next (s.raise (.illegalOp 0xD#4))

/-- Code `0xE` (R94, R210). -/
def execReservedE (s : State) : Outcome := .next (s.raise (.illegalOp 0xE#4))

/-- Code `0xF` (R94, R210). -/
def execReservedF (s : State) : Outcome := .next (s.raise (.illegalOp 0xF#4))

end Sys2Proof.Machine
end

