-- ==== Sys2Proof/Machine/Sync.lean ====
section
/-!
DEFINITION. The Frame Synchronizer: SYNC.START and SYNC.STEP, one definition per state (spec/42_sync.md R151 to R159).
-/

namespace Sys2Proof.Machine

/-- SYNC.START: "`st <- SEEK_MAGIC; phase <- TS; fill <- 0`" (R152). -/
def execSyncStart (s : State) : Outcome :=
  .next (({ s with st := .seekMagic, phase := .ts }.setFill 0).complete .noResult)

/-- "`fill <- 0; st <- SEEK_MAGIC`", with the event that says why the frame in progress was dropped (R154 to R157, R164). -/
def State.dropFrame (req : Nat) (ev : Event) (s : State) : State :=
  ({ s with st := .seekMagic }.setFill 0).produce (some req) (some ev) .noResult

/-- SYNC.STEP in `SEEK_MAGIC`, `r = MemRead(RX, 1)` (R153, R161). -/
def syncSeekMagic (r : List Byte) (s : State) : Outcome :=
  match r with
  | [] => .next ({ s with st := .ended }.produce (some 1) (some .ended) .noResult)
  | b :: _ =>
    if b = s.cfg.magic then
      orFault (s.storeFrame 0 [b]) fun t => .next ({ t with st := .readType }.produce (some 1) none .noResult)
    else .next (s.produce (some 1) none .noResult)

/-- SYNC.STEP in `READ_TYPE`, `r = MemRead(RX, 1)` (R154). -/
def syncReadType (r : List Byte) (s : State) : Outcome :=
  match r with
  | [] => .next (s.dropFrame 1 (.dropShort .type 0 1))
  | b :: _ =>
    match s.cfg.tt.lookup b with
    | none => .next (s.dropFrame 1 (.reportUnknownType b))
    | some l =>
      orFault (s.storeFrame 1 [b]) fun t =>
        .next ({ t with ftype := b, flen := l, phase := .ts, st := .readBody }.produce (some 1) none .noResult)

/-- SYNC.STEP in `READ_BODY`, `phase = TS`, `r = MemRead(RX, 4)`, 4 being `TS_LEN` (R155, R7). -/
def syncReadTs (r : List Byte) (s : State) : Outcome :=
  if r.length < tsLen then .next (s.dropFrame tsLen (.dropShort .ts r.length tsLen))
  else
    orFault (s.storeFrame 2 r) fun t =>
      .next ({ t with phase := if s.flen = 0#6 then .tr else .pl }.produce (some tsLen) none .noResult)

/-- SYNC.STEP in `READ_BODY`, `phase = PL`, `r = MemRead(RX, flen)` (R156). With `flen = 0`, which no run reaches, no read is
issued and the payload is complete (R52). -/
def syncReadPl (r : List Byte) (s : State) : Outcome :=
  if s.flen = 0#6 then .next ({ s with phase := .tr }.produce none none .noResult)
  else if r.length < s.flen.toNat then .next (s.dropFrame s.flen.toNat (.dropShort .pl r.length s.flen.toNat))
  else
    orFault (s.storeFrame 6 r) fun t => .next ({ t with phase := .tr }.produce (some s.flen.toNat) none .noResult)

/-- SYNC.STEP in `READ_BODY`, `phase = TR`, `r = MemRead(RX, 2)`, 2 being `TRAILER_LEN` (R157, R7). -/
def syncReadTr (r : List Byte) (s : State) : Outcome :=
  if r.length < trailerLen then .next (s.dropFrame trailerLen (.dropShort .tr r.length trailerLen))
  else
    orFault (s.storeFrame (6 + s.flen.toNat) r) fun t => .next ({ t with st := .emit }.produce (some trailerLen) none .noResult)

/-- SYNC.STEP in `EMIT`: "`p = PKT.DECODE(fb[0 ..< fill])` ... event Emit(`p`); `fill <- 0; st <- SEEK_MAGIC`" (R158). -/
def syncEmit (s : State) : Outcome :=
  orFault s.frameInProgress fun f =>
    match decodePacket s.cfg f with
    | .ok p => .next (({ s with st := .seekMagic }.setFill 0).produce none (some (.emit p)) (.packet p))
    | .error _ => .fault .emitNotAFrame

/-- SYNC.STEP in `END`: "no transport read, no event, `st` stays `END`" (R159). -/
def syncEnded (s : State) : Outcome := .next (s.produce none none .noResult)

/-- The response is longer than the read the step issued (R51: "`0 <= |r| <= n`"). -/
def State.overrun (s : State) (r : List Byte) : Bool :=
  match s.readSize with
  | some n => decide (n < r.length)
  | none => false

/-- SYNC.STEP: "dispatch on `st`" (R151), with the response of the read it issues. -/
def execSyncStep (r : List Byte) (s : State) : Outcome :=
  whenLegal s <|
    if s.overrun r then .refused .transportOverrun
    else
      match s.st with
      | .seekMagic => syncSeekMagic r s
      | .readType => syncReadType r s
      | .readBody =>
        match s.phase with
        | .ts => syncReadTs r s
        | .pl => syncReadPl r s
        | .tr => syncReadTr r s
      | .emit => syncEmit s
      | .ended => syncEnded s

end Sys2Proof.Machine
end

