-- ==== Sys2Proof/Machine/Wire.lean ====
section
/-!
DEFINITION. The wire formats of the table: a frame arriving on RX (spec/30_encoding.md R80, R84), to be scanned by
SYNC.STEP (spec/42_sync.md R153 to R158). The core itself does nothing until an operation is issued (R240; log 11). A frame's
length is read from the Type Table (R81), so a table that R30 calls illegal is refused here too (log 14).
-/

namespace Sys2Proof.Machine

/-- FRAME: its bytes, "in this order on the wire", arrive on RX (R80, R50 (a)). -/
def execFrame (type : Byte) (ts : Timestamp) (payload : List Byte) (c0 c1 : Byte) (s : State) : Outcome :=
  whenLegal s <| .next (s.arrive (frameBytes s.cfg ⟨type, ts, payload, c0, c1⟩))

/-- FRAME.IMAGE_CHUNK: the bytes of a frame of type `0x00` arrive on RX (R80, R84). -/
def execFrameImageChunk (ts : Timestamp) (payload : List Byte) (c0 c1 : Byte) (s : State) : Outcome :=
  whenLegal s <| .next (s.arrive (frameBytes s.cfg ⟨0x00#8, ts, payload, c0, c1⟩))

end Sys2Proof.Machine
end

