-- ==== Sys2Proof/Machine/Dispatch.lean ====
section
/-!
DEFINITION. One arm per constructor of Instr, each one direct call of its meaning.
-/

namespace Sys2Proof.Machine

def exec (i : Instr) (s : State) : Host.Outcome State Fault Refusal :=
  match i with
  | .crcInit => Sys2Proof.Machine.execCrcInit s
  | .crcUpdate b => Sys2Proof.Machine.execCrcUpdate b s
  | .crcCompute str => Sys2Proof.Machine.execCrcCompute str s
  | .crcVerify str t0 t1 => Sys2Proof.Machine.execCrcVerify str t0 t1 s
  | .pktEncode type ts payload => Sys2Proof.Machine.execPktEncode type ts payload s
  | .pktDecode f => Sys2Proof.Machine.execPktDecode f s
  | .syncStart => Sys2Proof.Machine.execSyncStart s
  | .syncStep r => Sys2Proof.Machine.execSyncStep r s
  | .c565Enc r g b => Sys2Proof.Machine.execC565Enc r g b s
  | .c565Dec p0 p1 => Sys2Proof.Machine.execC565Dec p0 p1 s
  | .pixPack px => Sys2Proof.Machine.execPixPack px s
  | .pixUnpack bs => Sys2Proof.Machine.execPixUnpack bs s
  | .reservedC => Sys2Proof.Machine.execReservedC s
  | .reservedD => Sys2Proof.Machine.execReservedD s
  | .reservedE => Sys2Proof.Machine.execReservedE s
  | .reservedF => Sys2Proof.Machine.execReservedF s
  | .frame type ts payload c0 c1 => Sys2Proof.Machine.execFrame type ts payload c0 c1 s
  | .frameImageChunk ts payload c0 c1 => Sys2Proof.Machine.execFrameImageChunk ts payload c0 c1 s
  | .pixel565 r5 g6 b5 => Sys2Proof.Machine.execPixel565 r5 g6 b5 s

end Sys2Proof.Machine
end

