-- ==== Sys2Proof/Machine/Issue.lean ====
section
/-!
DEFINITION. Serving one input of the environment: a presentation is answered by the transport, decoded and executed; the
reset input, a transport write and a timeout act as spec/70_reset_and_hazards.md R240, spec/20_memory.md R54 and R66 say.
-/

namespace Sys2Proof.Machine

/-- A presentation that is no instruction: bytes on the wire that are no frame arrive all the same and are met as garbage by
the synchronizer (R94 (b), (c); log 18), under a table R30 calls legal, since the Type Table decided that they are none (log
14); a command port that presents what its ports cannot carry is refused by name (log 13). -/
def undecodable (p : Presented) (e : DecodeError) (s : State) : Outcome :=
  match p with
  | .op4 _ => .refused (.notPresentable e)
  | .wire8 f => whenLegal s <| .next (s.arrive f)
  | .wire16 f => whenLegal s <| .next (s.arrive f)
  | .pix16 _ => .refused (.notPresentable e)

/-- A presentation: the transport drives the response ports, then the instruction is decoded and executed. -/
def issue (p : Presented) (s : State) : Outcome :=
  match decode (answered p s).2.cfg (answered p s).1 with
  | .ok i => exec i (answered p s).2
  | .error e => undecodable p e (answered p s).2

/-- One input of the environment. -/
def serve (i : Input) (s : State) : Outcome :=
  match i with
  | .present p => issue p s
  | .reset => .next s.assertReset
  | .send f written => sendFrame f written s
  | .timeout => .next { s with rx := channelTimeout s.rx }

/-- The oldest pending input is taken and served; with none, "the core does nothing until an operation is issued" (R240) and
"simply holds its state" (R222). -/
def cycle (s : State) : Outcome :=
  match s.inputs with
  | [] => .next s
  | i :: rest => serve i { s with inputs := rest }

/-- The table word as the next input. -/
def State.presentTableWord (s : State) (nbits w : Nat) : State :=
  { s with inputs := .present (tableWord s.cfg nbits w) :: s.inputs }

end Sys2Proof.Machine
end

