-- ==== Sys2Proof/Machine/Step.lean ====
section
/-!
DEFINITION. One step of the machine, and the host's way of placing an instruction where the step takes its next one.
-/

namespace Sys2Proof.Machine

/-- One step: the oldest pending input is served (R9, R61). -/
def step (s : State) : Host.Outcome State Fault Refusal := cycle s

/-- The instruction of a table word is what the next step takes: it stands first among the pending inputs (log 2). -/
def State.withFetchWord (s : State) (nbits w : Nat) : State := s.presentTableWord nbits w

end Sys2Proof.Machine
end

