-- ==== Sys2Proof/Machine/Pseudo.lean ====
section
/-!
DEFINITION. The pseudo-operations SYNC.NEXT and SYNC.RUN (spec/30_encoding.md R96 (c), (d); spec/42_sync.md R160) over
SYNC.STEP. "SYNC.NEXT need not terminate": each takes the number of steps it may use.
-/

namespace Sys2Proof.Machine

/-- SYNC.STEP as the application presents it: code `0x7`, the response left to the transport. -/
def syncStepPort : Presented := .op4 { op := 0x7#4 }

/-- SYNC.START as the application presents it: code `0x6`. -/
def syncStartPort : Presented := .op4 { op := 0x6#4 }

/-- What SYNC.NEXT ends with. -/
inductive NextResult where
  /-- A step produced Emit(`p`). -/
  | packet (p : Packet) (s : State)
  /-- A step produced End: "the end of the sequence". -/
  | finished (s : State)
  /-- A step stopped. -/
  | stopped
  /-- The steps allowed were used up. -/
  | unfinished (s : State)
  deriving DecidableEq, Repr

/-- "SYNC.NEXT repeats SYNC.STEP until a step produces Emit(`p`), and returns `p`, or produces End" (R160). -/
def syncNext : Nat → State → NextResult
  | 0, s => .unfinished s
  | n + 1, s =>
    match issue syncStepPort s with
    | .next t =>
      match t.event with
      | some (.emit p) => .packet p t
      | some .ended => .finished t
      | some (.reportUnknownType _) => syncNext n t
      | some (.dropShort _ _ _) => syncNext n t
      | none => syncNext n t
    | .fault _ => .stopped
    | .refused _ => .stopped

/-- SYNC.NEXT repeated until the end, each allowed `fuel` steps: "the list of Packets in the order emitted" and the state at
the end; none where the scan did not end (R160). -/
def syncCollect (fuel : Nat) : Nat → State → Option (List Packet × State)
  | 0, _ => none
  | n + 1, s =>
    match syncNext fuel s with
    | .packet p t => (syncCollect fuel n t).map (fun r => (p :: r.1, r.2))
    | .finished t => some ([], t)
    | .stopped => none
    | .unfinished _ => none

/-- "SYNC.RUN is SYNC.START then SYNC.NEXT until the end" (R160). -/
def syncRun (fuel : Nat) (s : State) : Option (List Packet × State) :=
  match issue syncStartPort s with
  | .next t => syncCollect fuel fuel t
  | .fault _ => none
  | .refused _ => none

end Sys2Proof.Machine
end

