-- ==== Sys2Proof/Safety.lean ====
section
/-!
DEFINITION. What the claims call a good state and a safe outcome: the invariant of the synchronizer's registers and buffer
(spec/10_state.md R24, R25; spec/42_sync.md R165), and "does not fault".
-/

namespace Sys2Proof.Machine

/-- The header of the frame in progress: "`fb[0] = cfg_magic`", "`TT[fb[1]] = flen` is not `none`" (R165), and `ftype` "duplicate[s]
`fb[1]`" (R25). -/
structure State.headerRead (s : State) : Prop where
  magicAt0 : s.fb.read 0 = some s.cfg.magic
  typeAt1 : s.fb.read 1 = some s.ftype
  lengthOfType : s.cfg.tt.lookup s.ftype = some s.flen

/-- What `st` and `phase` say of `fill` and the bytes read so far (R153 to R158, R165). -/
def State.control (s : State) : Prop :=
  match s.st with
  | .seekMagic => s.fill = 0#6
  | .readType => s.fill = 1#6 ∧ s.fb.read 0 = some s.cfg.magic
  | .readBody =>
    s.headerRead ∧
      match s.phase with
      | .ts => s.fill = 2#6
      | .pl => s.fill = 6#6 ∧ s.flen ≠ 0#6
      | .tr => s.fill.toNat = 6 + s.flen.toNat
  | .emit => s.headerRead ∧ s.fill.toNat = 8 + s.flen.toNat
  | .ended => s.fill = 0#6

/-- The invariant: the configuration is legal (R30), the frame buffer lists exactly `fb[0 ..< fill]` (R24), and the registers
agree with `st` (R165). -/
structure State.Inv (s : State) : Prop where
  cfgLegal : s.cfg.legal = true
  bufferFilled : s.fb.map Prod.fst = List.range s.fill.toNat
  controlled : s.control

/-- The outcome is no fault. -/
def NoFault (o : Outcome) : Prop := ∀ r, o ≠ .fault r

/-- The registers of the Frame Synchronizer are the same (R22 to R25). -/
structure SyncKept (s t : State) : Prop where
  st : t.st = s.st
  phase : t.phase = s.phase
  fb : t.fb = s.fb
  fill : t.fill = s.fill
  ftype : t.ftype = s.ftype
  flen : t.flen = s.flen

/-- The straps, the Transport Channel, the events so far and the pending inputs are the same (R28, R29, R34). -/
structure EnvKept (s t : State) : Prop where
  cfg : t.cfg = s.cfg
  rx : t.rx = s.rx
  tx : t.tx = s.tx
  txCount : t.txCount = s.txCount
  events : t.events = s.events
  inputs : t.inputs = s.inputs

/-- Every piece of state of R20 is the same. -/
structure CoreKept (s t : State) : Prop where
  crc : t.crc = s.crc
  sync : SyncKept s t

/-- The operation completed without error, produced no event and issued no transport read (R200, R36). -/
structure Completed (t : State) : Prop where
  err : t.err = none
  event : t.event = none
  rxReq : t.rxReq = none

/-- `n` presentations of SYNC.STEP, the responses left to the transport. -/
def syncSteps (n : Nat) : List Input := List.replicate n (.present syncStepPort)

end Sys2Proof.Machine
end

