-- ==== Sys2Proof/Certificates/Slice0/Obligations.lean ====
section
/-!
DEFINITION. The statements for the provers. Each docstring names the rule of spec/ it formalises, or the sections it rests
on and the log entry of a choice of the model's.
-/

open Sys2Proof Sys2Proof.Machine

/-! ### CRC Engine -/

/-- R111: one bit step, with the shift on 17 bits, and the rule's two examples. -/
def Obligations.CrcBitStepShiftsThenXorsPolynomial : Prop :=
  (∀ c : Half, crcBitStep c =
    if c.getLsbD 15 = true then ((c.setWidth 17 <<< 1) ^^^ 0x1021#17).setWidth 16
    else (c.setWidth 17 <<< 1).setWidth 16) ∧
  crcBitStep 0xEBFF#16 = 0xC7DF#16 ∧ crcBitStep 0x2F1F#16 = 0x5E3E#16

/-- R112: one byte step: the byte into the top 8 bits, the low 8 bits unchanged by that XOR, then eight bit steps; bit 7 of
the byte is the first bit tested; and the rule's example. -/
def Obligations.CrcByteStepConsumesByteTopBitFirst : Prop :=
  (∀ (c : Half) (b : Byte), ∃ c0 : Half,
    c0.extractLsb' 8 8 = c.extractLsb' 8 8 ^^^ b ∧ c0.extractLsb' 0 8 = c.extractLsb' 0 8 ∧
    c0.getLsbD 15 = (c.getLsbD 15 ^^ b.getLsbD 7) ∧
    crcByteStep c b = crcBitStep^[8] c0) ∧
  (List.range 9).map (fun n => crcBitStep^[n] (0xFFFF#16 ^^^ 0x1400#16)) =
    [0xEBFF#16, 0xC7DF#16, 0x9F9F#16, 0x2F1F#16, 0x5E3E#16, 0xBC7C#16, 0x68D9#16, 0xD1B2#16, 0xB345#16] ∧
  crcByteStep 0xFFFF#16 0x14#8 = 0xB345#16

/-- R113: CRC.INIT completes in every state and leaves `crc = 0xFFFF`; code `0x0`; no error; nothing else of the core and
the environment changes; idempotent. -/
def Obligations.CrcInitSetsInitialRegister : Prop :=
  decodeCommand { op := 0x0#4 } = .ok .crcInit ∧
  ∀ s : State, ∃ t, exec .crcInit s = .next t ∧ t.crc = 0xFFFF#16 ∧ SyncKept s t ∧ EnvKept s t ∧ t.err = none ∧
    exec .crcInit t = .next t

/-- CRC.UPDATE completes in every state for every byte, and steps `crc` by that byte; code `0x1`; no error; nothing else of
the core and the environment changes; and R114's example (not its remark that a byte `0x00` always changes the register). -/
def Obligations.CrcUpdateStepsRegisterByByte : Prop :=
  (∀ b, decodeCommand { op := 0x1#4, byte := b } = .ok (.crcUpdate b)) ∧
  (∀ (s : State) (b : Byte), ∃ t, exec (.crcUpdate b) s = .next t ∧ t.crc = crcByteStep s.crc b ∧ SyncKept s t ∧
    EnvKept s t ∧ t.err = none) ∧
  ∀ s : State, s.crc = 0xFFFF#16 → ∃ t u, exec (.crcUpdate 0x14#8) s = .next t ∧ t.crc = 0xB345#16 ∧
    exec (.crcUpdate 0x00#8) t = .next u ∧ u.crc = 0xD2B8#16

/-- R115: CRC.COMPUTE completes in every state for every byte string and leaves the fold of the byte step over it, from
`0xFFFF`, in `crc` and on the result port; the empty string gives `0xFFFF`; the other units leave `crc` alone. -/
def Obligations.CrcComputeFoldsByteSteps : Prop :=
  (∀ str, decodeCommand { op := 0x2#4, str := str } = .ok (.crcCompute str)) ∧
  (∀ (s : State) (str : List Byte), ∃ t, exec (.crcCompute str) s = .next t ∧
    t.crc = str.foldl crcByteStep 0xFFFF#16 ∧ t.result = .half (str.foldl crcByteStep 0xFFFF#16) ∧
    SyncKept s t ∧ EnvKept s t ∧ t.err = none) ∧
  (∀ str, crc16 str = str.foldl crcByteStep 0xFFFF#16) ∧ crc16 [] = 0xFFFF#16 ∧
  (∀ (s t : State) type ts payload, exec (.pktEncode type ts payload) s = .next t → t.crc = s.crc) ∧
  (∀ (s t : State) f, exec (.pktDecode f) s = .next t → t.crc = s.crc) ∧
  (∀ (s t : State) r, exec (.syncStep r) s = .next t → t.crc = s.crc) ∧
  crc16 [0x14#8, 0x00#8, 0x00#8, 0x00#8, 0x00#8, 0x00#8, 0xDE#8, 0xAD#8, 0xBE#8, 0xEF#8] = 0x1CCD#16

/-- R116: CRC.VERIFY completes in every state: `crc <- crc16(s)` and one bit, the byte-for-byte comparison with the big-endian
checksum; a mismatch is the bit 0 and no error; the empty string verifies against `FF FF` alone; a trailer in the other byte
order does not verify unless both bytes are equal; and the rule's example. -/
def Obligations.CrcVerifyComparesBigEndianTrailer : Prop :=
  (∀ str t0 t1, decodeCommand { op := 0x3#4, str := str, t0 := t0, t1 := t1 } = .ok (.crcVerify str t0 t1)) ∧
  (∀ (s : State) (str : List Byte) (t0 t1 : Byte), ∃ t, exec (.crcVerify str t0 t1) s = .next t ∧
    t.crc = crc16 str ∧
    t.result = .bit (decide (t0 = (crc16 str).extractLsb' 8 8 ∧ t1 = (crc16 str).extractLsb' 0 8)) ∧
    SyncKept s t ∧ EnvKept s t ∧ t.err = none) ∧
  (∀ t0 t1, verify [] t0 t1 = true ↔ t0 = 0xFF#8 ∧ t1 = 0xFF#8) ∧
  (∀ str t0 t1, verify str t0 t1 = true → verify str t1 t0 = true → t0 = t1) ∧
  verify [0x14#8, 0x00#8, 0x00#8, 0x00#8, 0x00#8, 0x00#8, 0xDE#8, 0xAD#8, 0xBE#8, 0xEF#8] 0x1C#8 0xCD#8 = true ∧
  verify [0x14#8, 0x00#8, 0x00#8, 0x00#8, 0x00#8, 0x00#8, 0xDE#8, 0xAD#8, 0xBE#8, 0xEF#8] 0xCD#8 0x1C#8 = false

/-- R119: CRC.VERIFY of any byte string against its own checksum, most significant byte first, gives 1. -/
def Obligations.CrcVerifyAcceptsOwnChecksum : Prop :=
  ∀ (s : State) (b : List Byte), ∃ t,
    exec (.crcVerify b ((crc16 b).extractLsb' 8 8) ((crc16 b).extractLsb' 0 8)) s = .next t ∧ t.result = .bit true

/-- R120: flipping one bit of the covered bytes changes the checksum and makes the verification against the original trailer
fail, at every length and bit position; flipping one bit of the trailer makes it fail too; and the rule's example. -/
def Obligations.SingleBitFlipIsDetected : Prop :=
  (∀ (b : List Byte) (i k : Nat), i < b.length → k < 8 →
    let flipped := b.set i (byteAt b i ^^^ (1#8 <<< k))
    crc16 flipped ≠ crc16 b ∧
    verify flipped ((crc16 b).extractLsb' 8 8) ((crc16 b).extractLsb' 0 8) = false) ∧
  (∀ (b : List Byte) (k : Nat), k < 8 →
    verify b ((crc16 b).extractLsb' 8 8 ^^^ (1#8 <<< k)) ((crc16 b).extractLsb' 0 8) = false ∧
    verify b ((crc16 b).extractLsb' 8 8) ((crc16 b).extractLsb' 0 8 ^^^ (1#8 <<< k)) = false) ∧
  crc16 [0x14#8, 0x00#8, 0x00#8, 0x00#8, 0x00#8, 0x00#8, 0xDE#8, 0xAD#8, 0xBE#8, 0xEF#8] = 0x1CCD#16 ∧
  crc16 [0x14#8, 0x00#8, 0x00#8, 0x00#8, 0x00#8, 0x00#8, 0xDF#8, 0xAD#8, 0xBE#8, 0xEF#8] = 0x6A79#16

/-- R121: the register run over a byte string and its own big-endian checksum ends at zero, and testing for zero agrees with
the comparison of R116 on every input. -/
def Obligations.CrcResidueIsZero : Prop :=
  (∀ b : List Byte, crc16 (b ++ be16 (crc16 b)) = 0x0000#16) ∧
  (∀ (b : List Byte) (t0 t1 : Byte), verify b t0 t1 = decide (crc16 (b ++ [t0, t1]) = 0x0000#16))

/-- R96 (a): steps of the machine that run CRC.INIT and then CRC.UPDATE of each byte in order leave in `crc` what
CRC.COMPUTE gives for the whole string, and take nothing from the rest of the state of the core. -/
def Obligations.CrcStreamEqualsCompute : Prop :=
  ∀ (s : State) (str : List Byte) (rest : List Input),
    s.inputs = .present (encode s.cfg .crcInit) :: str.map (fun b => .present (encode s.cfg (.crcUpdate b))) ++ rest →
    ∃ t, Host.Core.run Sys2Proof.core (1 + str.length) s = .next t ∧ t.crc = crc16 str ∧ t.inputs = rest ∧ SyncKept s t

/-- R21: `crc` is written only by the four CRC operations (and reset); the other units do not read it either: with another
value in `crc` they do the same to everything else; it is always on `crc_out`; its reset value is `0xFFFF`. -/
def Obligations.CrcRegisterBelongsToCrcEngine : Prop :=
  (∀ (i : Instr) (s t : State), (∀ str t0 t1 b, i ≠ .crcInit ∧ i ≠ .crcUpdate b ∧ i ≠ .crcCompute str ∧
      i ≠ .crcVerify str t0 t1) → exec i s = .next t →
    t.crc = s.crc ∧ ∀ c, exec i { s with crc := c } = .next { t with crc := c }) ∧
  (∀ s : State, s.crcOut = s.crc) ∧ State.reset.crc = 0xFFFF#16

/-! ### Packet Model -/

/-- R130: under a legal Type Table PKT.ENCODE completes in every state whose table gives the type the payload's length, with
the frame magic, type, timestamp, payload, big-endian checksum of all those, of `8 + |payload|` bytes; otherwise it ends with
MalformedPayload(type, |payload|); neither way does it write state of the core, touch the transport or change `crc`; and the
rule's example. -/
def Obligations.PktEncodeBuildsFrameOrRejects : Prop :=
  (∀ type ts payload, payload.length ≤ 63 →
    decodeCommand { op := 0x4#4, type := type, ts := ts, payload := payload } = .ok (.pktEncode type ts payload)) ∧
  (∀ (s : State) (type : Byte) (ts : Timestamp) (payload : List Byte), s.cfg.legal = true →
    (s.cfg.tt.lookup type).map BitVec.toNat = some payload.length →
    ∃ t f, exec (.pktEncode type ts payload) s = .next t ∧ t.result = .frame f ∧ t.err = none ∧
      f = [s.cfg.magic, type] ++ ts.toList ++ payload ++ be16 (crc16 ([s.cfg.magic, type] ++ ts.toList ++ payload)) ∧
      f.length = 8 + payload.length ∧ CoreKept s t ∧ EnvKept s t) ∧
  (∀ (s : State) (type : Byte) (ts : Timestamp) (payload : List Byte), s.cfg.legal = true →
    (s.cfg.tt.lookup type).map BitVec.toNat ≠ some payload.length →
    ∃ t, exec (.pktEncode type ts payload) s = .next t ∧ t.err = some (.malformedPayload type payload.length) ∧
      CoreKept s t ∧ EnvKept s t) ∧
  (∀ s : State, s.cfg.magic = 0x14#8 → s.cfg.tt = [(0x00#8, 4#6)] →
    ∃ t, exec (.pktEncode 0x00#8 ⟨0x00#8, 0x00#8, 0x00#8, 0x00#8⟩ [0xDE#8, 0xAD#8, 0xBE#8, 0xEF#8]) s = .next t ∧
      t.result = .frame [0x14#8, 0x00#8, 0x00#8, 0x00#8, 0x00#8, 0x00#8, 0xDE#8, 0xAD#8, 0xBE#8, 0xEF#8, 0x1C#8, 0xCD#8])

/-- R132: under a legal Type Table PKT.DECODE completes in every state on a whole frame of a registered type with the Packet
its fixed slices give, whatever `crc_valid`; otherwise it ends with BadLength, BadMagic, UnknownType or BadLength, in that
order of checking; no state of the core is written; and the rule's example. -/
def Obligations.PktDecodeSlicesFrameOrRejectsInOrder : Prop :=
  (∀ f, f.length ≤ 63 → decodeCommand { op := 0x5#4, frame := f } = .ok (.pktDecode f)) ∧
  decodePacket ⟨0x14#8, [(0x00#8, 4#6)]⟩
    [0x14#8, 0x00#8, 0x00#8, 0x00#8, 0x00#8, 0x00#8, 0xDE#8, 0xAD#8, 0xBE#8, 0xEF#8, 0x1C#8, 0xCD#8] =
    .ok ⟨0x00#8, ⟨0x00#8, 0x00#8, 0x00#8, 0x00#8⟩, [0xDE#8, 0xAD#8, 0xBE#8, 0xEF#8], true⟩ ∧
  ∀ (s : State) (f : List Byte), s.cfg.legal = true →
    ∃ t, exec (.pktDecode f) s = .next t ∧ CoreKept s t ∧ EnvKept s t ∧
      if f.length < 2 then t.err = some (.badLength f.length)
      else if byteAt f 0 ≠ s.cfg.magic then t.err = some (.badMagic (byteAt f 0))
      else match s.cfg.tt.lookup (byteAt f 1) with
        | none => t.err = some (.unknownType (byteAt f 1))
        | some l =>
          if f.length ≠ 8 + l.toNat then t.err = some (.badLength f.length)
          else t.err = none ∧
            t.result = .packet
              { type := byteAt f 1
                ts := ⟨byteAt f 2, byteAt f 3, byteAt f 4, byteAt f 5⟩
                payload := slice f 6 (6 + l.toNat)
                crcValid := decide (be16 (crc16 (slice f 0 (6 + l.toNat))) = slice f (6 + l.toNat) (8 + l.toNat)) }

/-- R138: what PKT.ENCODE makes of a payload of the registered length, PKT.DECODE of the same configuration gives back, with
`crc_valid = 1`, from whatever state it is issued in. -/
def Obligations.FrameRoundTripGivesFieldsBack : Prop :=
  ∀ (s s' : State) (type : Byte) (ts : Timestamp) (payload : List Byte), s.cfg.legal = true → s'.cfg = s.cfg →
    (s.cfg.tt.lookup type).map BitVec.toNat = some payload.length →
    ∃ t f t', exec (.pktEncode type ts payload) s = .next t ∧ t.result = .frame f ∧ t.err = none ∧
      exec (.pktDecode f) s' = .next t' ∧ t'.err = none ∧ t'.result = .packet ⟨type, ts, payload, true⟩

/-- R140: the invariant of every frame PKT.ENCODE returns and of every frame for which PKT.DECODE returns a Packet. -/
def Obligations.FramesSatisfyTheirInvariant : Prop :=
  (∀ (cfg : Config) type ts payload f, cfg.legal = true → encodePacket cfg type ts payload = .ok f →
    byteAt f 0 = cfg.magic ∧
      ∃ l, cfg.tt.lookup (byteAt f 1) = some l ∧ f.length = 8 + l.toNat ∧ 8 ≤ f.length ∧ f.length ≤ 56 ∧
        slice f (6 + l.toNat) (8 + l.toNat) = be16 (crc16 (slice f 0 (6 + l.toNat)))) ∧
  (∀ (cfg : Config) f p, cfg.legal = true → decodePacket cfg f = .ok p →
    byteAt f 0 = cfg.magic ∧
      ∃ l, cfg.tt.lookup (byteAt f 1) = some l ∧ f.length = 8 + l.toNat ∧ 8 ≤ f.length ∧ f.length ≤ 56)

/-- R139: PKT.ENCODE and PKT.DECODE depend on their operands and the configuration alone, and write no state of the core, make
no transport access and leave a scan as it was. -/
def Obligations.PacketOperationsArePure : Prop :=
  ∀ (i : Instr), ((∃ type ts payload, i = .pktEncode type ts payload) ∨ ∃ f, i = .pktDecode f) →
    ∀ (s s' t : State), s'.cfg = s.cfg → exec i s = .next t →
      CoreKept s t ∧ EnvKept s t ∧ t.rxReq = none ∧
      ∃ t', exec i s' = .next t' ∧ t'.err = t.err ∧ (t.err = none → t'.result = t.result)

/-- R137: the CRC is advisory: with one payload bit of a whole frame flipped, PKT.DECODE still completes with a Packet, its
fields as received and `crc_valid = 0`. -/
def Obligations.CorruptedPayloadIsFlaggedNotDropped : Prop :=
  ∀ (s : State) (type : Byte) (ts : Timestamp) (payload : List Byte) (i k : Nat) (f : List Byte), s.cfg.legal = true →
    encodePacket s.cfg type ts payload = .ok f → i < payload.length → k < 8 →
    ∃ t, exec (.pktDecode (f.set (6 + i) (byteAt f (6 + i) ^^^ (1#8 <<< k)))) s = .next t ∧ t.err = none ∧
      t.result = .packet ⟨type, ts, payload.set i (byteAt payload i ^^^ (1#8 <<< k)), false⟩

/-- R54 with R140: what the model lets the transport write offer, a whole frame whose trailer checks, is exactly what
PKT.ENCODE returns for some operands. -/
def Obligations.SendableFramesAreEncodedFrames : Prop :=
  ∀ (cfg : Config) (f : List Byte),
    isEncodedFrame cfg f = true ↔ ∃ type ts payload, encodePacket cfg type ts payload = .ok f

/-! ### Frame Synchronizer -/

/-- R152: SYNC.START completes in every state: `SEEK_MAGIC`, `TS`, `fill = 0`, no byte of a frame in progress, no transport
read, no event, no error, nothing else of the core; code `0x6`; after reset the synchronizer is there already. -/
def Obligations.SyncStartBeginsScan : Prop :=
  decodeCommand { op := 0x6#4 } = .ok .syncStart ∧
  (∀ s : State, ∃ t, exec .syncStart s = .next t ∧ t.st = .seekMagic ∧ t.phase = .ts ∧ t.fill = 0#6 ∧
    (∀ a, t.fb.read a = none) ∧ t.ftype = s.ftype ∧ t.flen = s.flen ∧ t.crc = s.crc ∧ EnvKept s t ∧
    t.rxReq = none ∧ t.event = none ∧ t.err = none) ∧
  State.reset.st = .seekMagic ∧ State.reset.phase = .ts ∧ State.reset.fill = 0#6

/-- R153: SYNC.STEP in `SEEK_MAGIC` completes for every response to its 1-byte read: an empty read ends the scan; `MAGIC` is
stored at `fb[0]`; any other byte is dropped; no error; every other register, and every other byte below `fill`, is as
before. -/
def Obligations.SeekMagicSkipsGarbageByteByByte : Prop :=
  ∀ s : State, s.cfg.legal = true → s.st = .seekMagic →
    s.readSize = some 1 ∧
    (∃ t, exec (.syncStep []) s = .next t ∧ t.st = .ended ∧ t.event = some .ended ∧ t.events = s.events ++ [.ended] ∧
      t.err = none ∧ t.rxReq = some 1 ∧ t.fb = s.fb ∧ t.fill = s.fill ∧ t.phase = s.phase ∧ t.ftype = s.ftype ∧
      t.flen = s.flen ∧ t.crc = s.crc) ∧
    ∀ b, ∃ t, exec (.syncStep [b]) s = .next t ∧ t.event = none ∧ t.events = s.events ∧ t.err = none ∧
      t.rxReq = some 1 ∧ t.phase = s.phase ∧ t.ftype = s.ftype ∧ t.flen = s.flen ∧ t.crc = s.crc ∧
      (b = s.cfg.magic → t.st = .readType ∧ t.fill = 1#6 ∧ ∀ a, t.fb.read a = if a = 0 then some b else none) ∧
      (b ≠ s.cfg.magic → t.st = .seekMagic ∧ t.fill = s.fill ∧ t.fb = s.fb)

/-- R154: SYNC.STEP in `READ_TYPE` completes for every response to its 1-byte read: an empty read drops the frame with
DropShort(TYPE, 0, 1); an unregistered type drops it with ReportUnknownType; a registered type is latched and stored at
`fb[1]`; the registers the rule does not assign are as before. The byte is not looked at again, even when it equals `MAGIC`: the next state does not depend on that. -/
def Obligations.ReadTypeLatchesLengthOrReports : Prop :=
  ∀ s : State, s.cfg.legal = true → s.st = .readType →
    s.readSize = some 1 ∧
    (∃ t, exec (.syncStep []) s = .next t ∧ t.st = .seekMagic ∧ t.fill = 0#6 ∧ (∀ a, t.fb.read a = none) ∧
      t.event = some (.dropShort .type 0 1) ∧ t.err = none ∧ t.rxReq = some 1 ∧ t.phase = s.phase ∧ t.ftype = s.ftype ∧
      t.flen = s.flen ∧ t.crc = s.crc) ∧
    (∀ b, s.cfg.tt.lookup b = none →
      ∃ t, exec (.syncStep [b]) s = .next t ∧ t.st = .seekMagic ∧ t.fill = 0#6 ∧ (∀ a, t.fb.read a = none) ∧
        t.event = some (.reportUnknownType b) ∧ t.err = none ∧ t.rxReq = some 1 ∧ t.phase = s.phase ∧
        t.ftype = s.ftype ∧ t.flen = s.flen ∧ t.crc = s.crc) ∧
    (∀ b l, s.cfg.tt.lookup b = some l →
      ∃ t, exec (.syncStep [b]) s = .next t ∧ t.st = .readBody ∧ t.phase = .ts ∧ t.ftype = b ∧ t.flen = l ∧
        t.fill = 2#6 ∧ (∀ a, t.fb.read a = if a = 0 then s.fb.read 0 else if a = 1 then some b else none) ∧
        t.event = none ∧ t.err = none ∧ t.rxReq = some 1 ∧ t.crc = s.crc)

/-- R155: SYNC.STEP in `READ_BODY`, `phase = TS`, completes for every response to its 4-byte read: a short one drops the frame;
a full one is stored at `fb[2 ..< 6]`, and the trailer is next when `flen = 0`, else the payload; the registers the rule does
not assign are as before. -/
def Obligations.ReadBodyTakesTimestamp : Prop :=
  ∀ s : State, s.cfg.legal = true → s.st = .readBody → s.phase = .ts →
    s.readSize = some 4 ∧
    ∀ r, r.length ≤ 4 → ∃ t, exec (.syncStep r) s = .next t ∧ t.err = none ∧ t.rxReq = some 4 ∧ t.ftype = s.ftype ∧
      t.flen = s.flen ∧ t.crc = s.crc ∧
      (r.length < 4 → t.st = .seekMagic ∧ t.fill = 0#6 ∧ (∀ a, t.fb.read a = none) ∧
        t.event = some (.dropShort .ts r.length 4) ∧ t.phase = s.phase) ∧
      (r.length = 4 → t.st = .readBody ∧ t.phase = (if s.flen = 0#6 then .tr else .pl) ∧ t.fill = 6#6 ∧
        t.event = none ∧
        ∀ a, t.fb.read a = if a < 2 then s.fb.read a else if a < 6 then some (byteAt r (a - 2)) else none)

/-- R156: SYNC.STEP in `READ_BODY`, `phase = PL` (entered only when `flen >= 1`), completes for every response to its one read
of `flen` bytes: a short one drops the frame; a full one is stored at `fb[6 ..< 6 + flen]`, and the trailer is next; the
registers the rule does not assign are as before. -/
def Obligations.ReadBodyTakesPayload : Prop :=
  ∀ s : State, s.cfg.legal = true → s.st = .readBody → s.phase = .pl → 1 ≤ s.flen.toNat → s.flen.toNat ≤ 48 →
    s.readSize = some s.flen.toNat ∧
    ∀ r, r.length ≤ s.flen.toNat → ∃ t, exec (.syncStep r) s = .next t ∧ t.err = none ∧
      t.rxReq = some s.flen.toNat ∧ t.ftype = s.ftype ∧ t.flen = s.flen ∧ t.crc = s.crc ∧
      (r.length < s.flen.toNat → t.st = .seekMagic ∧ t.fill = 0#6 ∧ (∀ a, t.fb.read a = none) ∧
        t.event = some (.dropShort .pl r.length s.flen.toNat) ∧ t.phase = s.phase) ∧
      (r.length = s.flen.toNat → t.st = .readBody ∧ t.phase = .tr ∧ t.fill.toNat = 6 + s.flen.toNat ∧
        t.event = none ∧
        ∀ a, t.fb.read a = if a < 6 then s.fb.read a else if a < 6 + s.flen.toNat then some (byteAt r (a - 6)) else none)

/-- R157: SYNC.STEP in `READ_BODY`, `phase = TR`, completes for every response to its 2-byte read: a short one drops the frame;
a full one is stored at `fb[6 + flen ..< 8 + flen]`, not compared, and `EMIT` is next; the registers the rule does
not assign are as before. -/
def Obligations.ReadBodyTakesTrailer : Prop :=
  ∀ s : State, s.cfg.legal = true → s.st = .readBody → s.phase = .tr → s.flen.toNat ≤ 48 →
    s.readSize = some 2 ∧
    ∀ r, r.length ≤ 2 → ∃ t, exec (.syncStep r) s = .next t ∧ t.err = none ∧ t.rxReq = some 2 ∧ t.ftype = s.ftype ∧
      t.flen = s.flen ∧ t.crc = s.crc ∧
      (r.length < 2 → t.st = .seekMagic ∧ t.fill = 0#6 ∧ (∀ a, t.fb.read a = none) ∧
        t.event = some (.dropShort .tr r.length 2) ∧ t.phase = s.phase) ∧
      (r.length = 2 → t.st = .emit ∧ t.phase = s.phase ∧ t.fill.toNat = 8 + s.flen.toNat ∧ t.event = none ∧
        ∀ a, t.fb.read a =
          if a < 6 + s.flen.toNat then s.fb.read a
          else if a < 8 + s.flen.toNat then some (byteAt r (a - (6 + s.flen.toNat))) else none)

/-- R158: SYNC.STEP in `EMIT` completes when `fb[0 ..< fill]` decodes to a Packet `p`: event Emit(`p`) whatever its `crc_valid`,
`fill <- 0`, `SEEK_MAGIC`, no transport read (what stands on the response ports is not looked at), no error. -/
def Obligations.EmitYieldsDecodedPacket : Prop :=
  ∀ (s : State) (r f : List Byte) (p : Packet), s.cfg.legal = true → s.st = .emit →
    s.fb.readBytes 0 s.fill.toNat = some f → decodePacket s.cfg f = .ok p →
    ∃ t, exec (.syncStep r) s = .next t ∧ t.event = some (.emit p) ∧ t.events = s.events ++ [.emit p] ∧
      t.result = .packet p ∧ t.st = .seekMagic ∧ t.fill = 0#6 ∧ (∀ a, t.fb.read a = none) ∧ t.rxReq = none ∧
      t.err = none ∧ t.ftype = s.ftype ∧ t.flen = s.flen ∧ t.phase = s.phase ∧ t.crc = s.crc ∧ t.rx = s.rx

/-- R159: SYNC.STEP in `END` completes and does nothing: no transport read, no event, every register as it was; and a step
leaves `END` only by SYNC.START or the reset input. -/
def Obligations.EndHoldsUntilStartOrReset : Prop :=
  (∀ (s : State) (r : List Byte), s.cfg.legal = true → s.st = .ended →
    ∃ t, exec (.syncStep r) s = .next t ∧ t.event = none ∧ t.rxReq = none ∧ t.err = none ∧ CoreKept s t ∧ EnvKept s t) ∧
  (∀ s t : State, s.st = .ended → step s = .next t → t.st ≠ .ended →
    ∃ rest, s.inputs = .reset :: rest ∨ ∃ p, s.inputs = .present p :: rest ∧ decode s.cfg p = .ok .syncStart)

/-- R162: the transition table, row for row: from a state that satisfies the invariant, SYNC.STEP with a response of `k` bytes,
no more than the read it issues, completes, and the read issued, the next `st` and `phase` and the event are those of the one
row that applies. -/
def Obligations.SyncStepFollowsTransitionTable : Prop :=
  ∀ (s : State) (r : List Byte), s.Inv → (∀ n, s.readSize = some n → r.length ≤ n) →
    ∃ t, exec (.syncStep r) s = .next t ∧ t.rxReq = s.readSize ∧
      match s.st, s.phase with
      | .seekMagic, _ =>
        s.readSize = some 1 ∧
        if r.length = 0 then t.st = .ended ∧ t.event = some .ended
        else if byteAt r 0 = s.cfg.magic then t.st = .readType ∧ t.event = none
        else t.st = .seekMagic ∧ t.event = none
      | .readType, _ =>
        s.readSize = some 1 ∧
        if r.length = 0 then t.st = .seekMagic ∧ t.event = some (.dropShort .type 0 1)
        else match s.cfg.tt.lookup (byteAt r 0) with
          | none => t.st = .seekMagic ∧ t.event = some (.reportUnknownType (byteAt r 0))
          | some l => t.st = .readBody ∧ t.phase = .ts ∧ t.flen = l ∧ t.event = none
      | .readBody, .ts =>
        s.readSize = some 4 ∧
        if r.length < 4 then t.st = .seekMagic ∧ t.event = some (.dropShort .ts r.length 4)
        else if 1 ≤ s.flen.toNat then t.st = .readBody ∧ t.phase = .pl ∧ t.event = none
        else t.st = .readBody ∧ t.phase = .tr ∧ t.event = none
      | .readBody, .pl =>
        s.readSize = some s.flen.toNat ∧
        if r.length < s.flen.toNat then t.st = .seekMagic ∧ t.event = some (.dropShort .pl r.length s.flen.toNat)
        else t.st = .readBody ∧ t.phase = .tr ∧ t.event = none
      | .readBody, .tr =>
        s.readSize = some 2 ∧
        if r.length < 2 then t.st = .seekMagic ∧ t.event = some (.dropShort .tr r.length 2)
        else t.st = .emit ∧ t.event = none
      | .emit, _ => s.readSize = none ∧ t.st = .seekMagic ∧ ∃ p, t.event = some (.emit p)
      | .ended, _ => s.readSize = none ∧ t.st = .ended ∧ t.event = none

/-- R161: a scan ends exactly on an empty read in `SEEK_MAGIC`, with the event End and no error; an empty read in any other
state discards the frame in progress and returns to `SEEK_MAGIC`, where the next read, if also empty, ends the scan. -/
def Obligations.ScanEndsOnlyOnEmptyReadInSeekMagic : Prop :=
  (∀ (s t : State) (r : List Byte), s.st ≠ .ended → exec (.syncStep r) s = .next t →
    (t.st = .ended ↔ s.st = .seekMagic ∧ r = []) ∧ (t.st = .ended → t.event = some .ended ∧ t.err = none)) ∧
  (∀ s : State, s.Inv → s.st = .readType ∨ s.st = .readBody →
    ∃ t, exec (.syncStep []) s = .next t ∧ t.st = .seekMagic ∧ t.fill = 0#6 ∧
      ∃ u, exec (.syncStep []) t = .next u ∧ u.st = .ended ∧ u.event = some .ended)

/-- R165: on entry to `EMIT` (a state with the invariant) the buffer starts with `MAGIC`, its type is registered with the length
`flen`, it is `8 + flen` bytes long; so PKT.DECODE of it gives a Packet and the step produces exactly that one. -/
def Obligations.EmitCannotFail : Prop :=
  ∀ (s : State) (r : List Byte), s.Inv → s.st = .emit →
    ∃ f p t, s.fb.readBytes 0 s.fill.toNat = some f ∧ byteAt f 0 = s.cfg.magic ∧
      s.cfg.tt.lookup (byteAt f 1) = some s.flen ∧ f.length = 8 + s.flen.toNat ∧ s.fill.toNat = 8 + s.flen.toNat ∧
      decodePacket s.cfg f = .ok p ∧ exec (.syncStep r) s = .next t ∧ t.event = some (.emit p) ∧
      t.events = s.events ++ [.emit p]

/-- R52, R7, R81: in every state with the invariant a read that the next SYNC.STEP issues asks for 1, `TS_LEN`, `flen` or
`TRAILER_LEN` bytes, never for 0 and never for more than `PAYLOAD_MAX`; the parameters have R7's values; and a frame is as
long as its parts, `FRAME_MIN` to `FRAME_MAX` bytes for a payload of at most `PAYLOAD_MAX`. -/
def Obligations.ReadSizesStayWithinTransportBounds : Prop :=
  (∀ (s : State) (n : Nat), s.Inv → s.readSize = some n →
    1 ≤ n ∧ n ≤ payloadMax ∧ (n = 1 ∨ n = tsLen ∨ n = trailerLen ∨ n = s.flen.toNat) ∧ s.st ≠ .emit ∧ s.st ≠ .ended) ∧
  (payloadMax = 48 ∧ tsLen = 4 ∧ trailerLen = 2 ∧ frameMin = 8 ∧ frameMax = 56) ∧
  (∀ (cfg : Config) (ff : FrameFields), ff.ts.toList.length = tsLen ∧
    (frameBytes cfg ff).length = 2 + tsLen + ff.payload.length + trailerLen ∧
    (ff.payload.length ≤ payloadMax → frameMin ≤ (frameBytes cfg ff).length ∧ (frameBytes cfg ff).length ≤ frameMax))

/-- R51, R163: a SYNC.STEP of the machine takes from RX exactly the bytes of its response, from the front and in order, and
never more than it asks for; what is left is what the next read sees. The instruction itself changes nothing of the straps,
RX, TX and the pending inputs. The channel of the model rules out no transport: for
every read size, every response of 0 to `n` bytes and every later contents of RX, some contents of RX gives that response and
leaves those contents (log 4). -/
def Obligations.StepConsumesExactlyItsResponse : Prop :=
  (∀ s t : State, issue syncStepPort s = .next t →
    ∃ r, s.rx.flatten = r ++ t.rx.flatten ∧ (∀ n, s.readSize = some n → r.length ≤ n) ∧
      (s.readSize = none → r = []) ∧ exec (.syncStep r) { s with rx := t.rx } = .next t) ∧
  (∀ (s t : State) (r : List Byte), exec (.syncStep r) s = .next t →
    t.cfg = s.cfg ∧ t.rx = s.rx ∧ t.tx = s.tx ∧ t.txCount = s.txCount ∧ t.inputs = s.inputs) ∧
  (∀ (n : Nat) (r seg : List Byte) (rest : List (List Byte)), 1 ≤ n → r.length ≤ n →
    ∃ rx, channelRead rx n = (r, seg :: rest))

/-- R166: from `SEEK_MAGIC`, garbage without `MAGIC` and then one encoded frame, all read in full: the first Packet SYNC.NEXT
returns is the decode of that frame, no other event and no error comes before it, and the bytes after the frame are left in
RX. -/
def Obligations.GarbageThenFrameResynchronizes : Prop :=
  ∀ (s : State) (garbage f tail : List Byte) (rest : List (List Byte)) (type : Byte) (ts : Timestamp)
    (payload : List Byte), s.Inv → s.st = .seekMagic → (∀ b ∈ garbage, b ≠ s.cfg.magic) →
    encodePacket s.cfg type ts payload = .ok f → s.rx = (garbage ++ f ++ tail) :: rest →
    ∃ fuel p t, decodePacket s.cfg f = .ok p ∧ p = ⟨type, ts, payload, true⟩ ∧ syncNext fuel s = .packet p t ∧
      t.events = s.events ++ [.emit p] ∧ t.err = none ∧ t.st = .seekMagic ∧ t.rx = tail :: rest

/-- R167: a frame of an unregistered type none of whose bytes after the type is `MAGIC`, then one encoded frame, all read in
full: SYNC.RUN ends and yields exactly one Packet, the valid one; the events are the report, that Packet and End. -/
def Obligations.UnknownTypeCostsExactlyOneFrame : Prop :=
  ∀ (s : State) (unknown type : Byte) (body f : List Byte) (ts : Timestamp) (payload : List Byte), s.Inv →
    s.cfg.tt.lookup unknown = none → (∀ b ∈ body, b ≠ s.cfg.magic) →
    encodePacket s.cfg type ts payload = .ok f → s.rx = [[s.cfg.magic, unknown] ++ body ++ f] →
    ∃ fuel t, syncRun fuel s = some ([⟨type, ts, payload, true⟩], t) ∧ t.st = .ended ∧
      t.events = s.events ++ [.reportUnknownType unknown, .emit ⟨type, ts, payload, true⟩, .ended]

/-- R161, R252: with finitely many bytes in RX and every later read empty (the channel of the model, log 4), SYNC.RUN ends, in `END`
and with the event End last, from every state with the invariant. -/
def Obligations.ScanOfFiniteStreamTerminates : Prop :=
  ∀ s : State, s.Inv → ∃ fuel packets t, syncRun fuel s = some (packets, t) ∧ t.st = .ended ∧
    t.events.getLast? = some .ended

/-- The table's FRAME row, scanned (R80, R153 to R158; log 11): a wire frame of a registered type presented to an idle
synchronizer with nothing in RX, then SYNC.STEPs, six or, for an empty payload, five: the last one emits the Packet of its
fields, `crc_valid` telling whether the trailer checks, and RX is empty again. -/
def Obligations.PresentedFrameIsScannedAndEmitted : Prop :=
  ∀ (s : State) (type : Byte) (ts : Timestamp) (payload : List Byte) (c0 c1 : Byte) (rest : List Input), s.Inv →
    s.st = .seekMagic → s.rx = [] → (Instr.frame type ts payload c0 c1).wf s.cfg = true →
    s.inputs = .present (encode s.cfg (.frame type ts payload c0 c1)) ::
      syncSteps (if payload = [] then 5 else 6) ++ rest →
    ∃ t, Host.Core.run Sys2Proof.core (1 + (if payload = [] then 5 else 6)) s = .next t ∧
      t.event = some (.emit ⟨type, ts, payload,
        verify ([s.cfg.magic, type] ++ ts.toList ++ payload) c0 c1⟩) ∧
      t.rx.flatten = [] ∧ t.st = .seekMagic ∧ t.fill = 0#6 ∧ t.crc = s.crc ∧ t.inputs = rest

/-! ### Color Codec -/

/-- R180: C565.ENC completes in every state with the two bytes, big-endian, of `(r5<<11)|(g6<<5)|b5` for the channels shifted
right by 3, 2, 3, no rounding; nothing of the core changes; code `0x8`; and the rule's corner cases and example. -/
def Obligations.ColorEncodeTruncatesAndPacks : Prop :=
  (∀ r g b, decodeCommand { op := 0x8#4, r := r, g := g, b := b } = .ok (.c565Enc r g b)) ∧
  (∀ (s : State) (r g b : Byte), ∃ t w, exec (.c565Enc r g b) s = .next t ∧
    w = r.toNat / 8 * 2048 + g.toNat / 4 * 32 + b.toNat / 8 ∧
    t.result = .bytes [BitVec.ofNat 8 (w / 256), BitVec.ofNat 8 w] ∧ CoreKept s t ∧ EnvKept s t ∧ t.err = none) ∧
  encodeColor ⟨0#8, 0#8, 0#8⟩ = [0x00#8, 0x00#8] ∧ encodeColor ⟨255#8, 255#8, 255#8⟩ = [0xFF#8, 0xFF#8] ∧
  encodeColor ⟨7#8, 3#8, 7#8⟩ = [0x00#8, 0x00#8] ∧ encodeColor ⟨0x12#8, 0x34#8, 0x56#8⟩ = [0x11#8, 0xAA#8]

/-- R181: C565.DEC completes in every state for every two bytes with the three fields expanded by bit replication; nothing of
the core changes; code `0x9`; and the rule's corner cases and example. -/
def Obligations.ColorDecodeReplicatesHighBits : Prop :=
  (∀ p0 p1, decodeCommand { op := 0x9#4, p0 := p0, p1 := p1 } = .ok (.c565Dec p0 p1)) ∧
  (∀ (s : State) (p0 p1 : Byte), ∃ t c w r5 g6 b5, exec (.c565Dec p0 p1) s = .next t ∧ t.result = .color c ∧
    w = p0.toNat * 256 + p1.toNat ∧ r5 = w / 2048 ∧ g6 = w / 32 % 64 ∧ b5 = w % 32 ∧
    c.r.toNat = r5 * 8 + r5 / 4 ∧ c.g.toNat = g6 * 4 + g6 / 16 ∧ c.b.toNat = b5 * 8 + b5 / 4 ∧
    CoreKept s t ∧ EnvKept s t ∧ t.err = none) ∧
  decodeColor 0x00#8 0x00#8 = ⟨0#8, 0#8, 0#8⟩ ∧ decodeColor 0xFF#8 0xFF#8 = ⟨255#8, 255#8, 255#8⟩ ∧
  decodeColor 0x11#8 0xAA#8 = ⟨16#8, 52#8, 82#8⟩

/-- R182: from every state, C565.DEC of the two bytes C565.ENC gives a sample differs from it by at most 7, 3, 7, and the
bound is reached in both directions. -/
def Obligations.ColorRoundTripErrorIsBounded : Prop :=
  (∀ (s : State) (c : Color), ∃ t p0 p1 u d, exec (.c565Enc c.r c.g c.b) s = .next t ∧ t.result = .bytes [p0, p1] ∧
    exec (.c565Dec p0 p1) t = .next u ∧ u.result = .color d ∧
    d.r.toNat ≤ c.r.toNat + 7 ∧ c.r.toNat ≤ d.r.toNat + 7 ∧
    d.g.toNat ≤ c.g.toNat + 3 ∧ c.g.toNat ≤ d.g.toNat + 3 ∧
    d.b.toNat ≤ c.b.toNat + 7 ∧ c.b.toNat ≤ d.b.toNat + 7) ∧
  (∀ s : State, ∃ t u, exec (.c565Enc 7#8 3#8 7#8) s = .next t ∧ t.result = .bytes [0x00#8, 0x00#8] ∧
    exec (.c565Dec 0x00#8 0x00#8) t = .next u ∧ u.result = .color ⟨0#8, 0#8, 0#8⟩) ∧
  (∀ s : State, ∃ t u, exec (.c565Enc 248#8 252#8 248#8) s = .next t ∧ t.result = .bytes [0xFF#8, 0xFF#8] ∧
    exec (.c565Dec 0xFF#8 0xFF#8) t = .next u ∧ u.result = .color ⟨255#8, 255#8, 255#8⟩)

/-- R183 (a), (b): encoding after decoding is the identity on all 65536 packed values, and decoding is strictly increasing in
each field. -/
def Obligations.ColorEncodeAfterDecodeIsIdentity : Prop :=
  (∀ (s : State) (p0 p1 : Byte), ∃ t c, exec (.c565Dec p0 p1) s = .next t ∧ t.result = .color c ∧
    ∃ u, exec (.c565Enc c.r c.g c.b) t = .next u ∧ u.result = .bytes [p0, p1]) ∧
  (∀ v v' : BitVec 5, v.toNat < v'.toNat → (expand5 v).toNat < (expand5 v').toNat) ∧
  (∀ v v' : BitVec 6, v.toNat < v'.toNat → (expand6 v).toNat < (expand6 v').toNat)

/-- R184: PIX.PACK completes in every state for 0 to 24 samples with `2n` bytes, sample `i` at bytes `2i` and `2i+1` as C565.ENC
gives it; no samples give no bytes; the Type Table is not consulted; nothing of the core changes; code `0xA`. -/
def Obligations.PixelPackPlacesEachSample : Prop :=
  (∀ px, px.length ≤ 24 → decodeCommand { op := 0xA#4, pixels := px } = .ok (.pixPack px)) ∧
  (∀ (s : State) (px : List Color), px.length ≤ 24 → ∃ t bs, exec (.pixPack px) s = .next t ∧ t.result = .bytes bs ∧
    bs.length = 2 * px.length ∧
    (∀ i c, px[i]? = some c → slice bs (2 * i) (2 * i + 2) = encodeColor c) ∧
    CoreKept s t ∧ EnvKept s t ∧ t.err = none) ∧
  packPixels [⟨255#8, 0#8, 0#8⟩, ⟨0#8, 255#8, 0#8⟩, ⟨0#8, 0#8, 255#8⟩] =
    [0xF8#8, 0x00#8, 0x07#8, 0xE0#8, 0x00#8, 0x1F#8]

/-- R185: PIX.UNPACK completes in every state for a byte string of even length up to 48 with half as many samples, sample `i`
from bytes `2i` and `2i+1` as C565.DEC gives it; an odd length ends with BadLength; nothing of the core changes; code `0xB`. -/
def Obligations.PixelUnpackReadsEachPair : Prop :=
  (∀ bs, bs.length ≤ 48 → decodeCommand { op := 0xB#4, pixelBytes := bs } = .ok (.pixUnpack bs)) ∧
  (∀ (s : State) (bs : List Byte), bs.length ≤ 48 → bs.length % 2 = 0 → ∃ t cs, exec (.pixUnpack bs) s = .next t ∧
    t.result = .colors cs ∧ cs.length = bs.length / 2 ∧
    (∀ i, i < bs.length / 2 → cs[i]? = some (decodeColor (byteAt bs (2 * i)) (byteAt bs (2 * i + 1)))) ∧
    CoreKept s t ∧ EnvKept s t ∧ t.err = none) ∧
  (∀ (s : State) (bs : List Byte), bs.length ≤ 48 → bs.length % 2 = 1 → ∃ t, exec (.pixUnpack bs) s = .next t ∧
    t.err = some (.badLength bs.length) ∧ CoreKept s t ∧ EnvKept s t) ∧
  unpackPixels [0xF8#8, 0x00#8, 0x07#8, 0xE0#8, 0x00#8, 0x1F#8] =
    [⟨255#8, 0#8, 0#8⟩, ⟨0#8, 255#8, 0#8⟩, ⟨0#8, 0#8, 255#8⟩]

/-- The table's PIXEL565 row (R89, R90; that it is put together and serialized on the result port is the model's choice, log
11): completes in every state with first byte `{r5, g6[5:3]}` and second byte `{g6[2:0], b5}`; nothing of the core changes. That
it overwrites `err_code`, `ev_code` and the read request as an operation of R93 does is the model's choice too (log 11). -/
def Obligations.PackedColourWordIsSerializedBigEndian : Prop :=
  ∀ (s : State) (r5 : BitVec 5) (g6 : BitVec 6) (b5 : BitVec 5), ∃ t b0 b1, exec (.pixel565 r5 g6 b5) s = .next t ∧
    t.result = .bytes [b0, b1] ∧ b0.toNat = r5.toNat * 8 + g6.toNat / 8 ∧ b1.toNat = g6.toNat % 8 * 32 + b5.toNat ∧
    CoreKept s t ∧ EnvKept s t ∧ t.err = none ∧ t.event = none ∧ t.rxReq = none

/-! ### Errors, reserved codes, wire formats -/

/-- R210: presenting a reserved code, with anything on the operand ports, raises IllegalOp with that code; no state changes. -/
def Obligations.ReservedCodesRaiseIllegalOp : Prop :=
  (∀ (s : State) (p : CommandPort), 12 ≤ p.op.toNat → ∃ t, issue (.op4 p) s = .next t ∧
    t.err = some (.illegalOp p.op) ∧ CoreKept s t ∧ EnvKept s t) ∧
  (∀ s : State, ∃ t, exec .reservedC s = .next t ∧ t.err = some (.illegalOp 0xC#4) ∧ CoreKept s t ∧ EnvKept s t) ∧
  (∀ s : State, ∃ t, exec .reservedD s = .next t ∧ t.err = some (.illegalOp 0xD#4) ∧ CoreKept s t ∧ EnvKept s t) ∧
  (∀ s : State, ∃ t, exec .reservedE s = .next t ∧ t.err = some (.illegalOp 0xE#4) ∧ CoreKept s t ∧ EnvKept s t) ∧
  (∀ s : State, ∃ t, exec .reservedF s = .next t ∧ t.err = some (.illegalOp 0xF#4) ∧ CoreKept s t ∧ EnvKept s t)

/-- R213 over all operations of the command port: one that ends with an error is PKT.ENCODE, PKT.DECODE, PIX.UNPACK or a
reserved code, and it has changed no state of the core and touched no transport. That it shows no event and no read request,
whatever stood on these ports before, is the model's reading (log 10). -/
def Obligations.ErrorsHaveNoOtherEffect : Prop :=
  ∀ (i : Instr) (s t : State) (e : OpError), (∃ p, encode s.cfg i = .op4 p) → exec i s = .next t → t.err = some e →
    CoreKept s t ∧ EnvKept s t ∧ t.event = none ∧ t.rxReq = none ∧
    ((∃ type ts payload, i = .pktEncode type ts payload ∧ e = .malformedPayload type payload.length) ∨
      (∃ f, i = .pktDecode f ∧ ∀ type n op, e ≠ .malformedPayload type n ∧ e ≠ .illegalOp op) ∨
      (∃ bs, i = .pixUnpack bs ∧ e = .badLength bs.length) ∨
      (i = .reservedC ∧ e = .illegalOp 0xC#4) ∨ (i = .reservedD ∧ e = .illegalOp 0xD#4) ∨
      (i = .reservedE ∧ e = .illegalOp 0xE#4) ∨ (i = .reservedF ∧ e = .illegalOp 0xF#4))

/-- The error output is not sticky (R213): what `err_code` and `ev_code` show after an operation of the command port does not
depend on what they showed before; every operation but SYNC.STEP leaves `ev_code` at `0x0` and issues no transport read (log
10); a SYNC.STEP produces no event or exactly one, which the record of events then ends with, and no other instruction adds to
that record (R168). -/
def Obligations.EachOperationOverwritesThePorts : Prop :=
  (∀ (s t : State) r, exec (.syncStep r) s = .next t → t.events = s.events ++ t.event.toList) ∧
  (∀ (i : Instr) (s t : State), (∀ r, i ≠ .syncStep r) → exec i s = .next t → t.events = s.events) ∧
  (∀ (i : Instr) (s s' t t' : State), (∃ p, encode s.cfg i = .op4 p) → s' = { s with err := s'.err, event := s'.event } →
    exec i s = .next t → exec i s' = .next t' → t'.err = t.err ∧ t'.event = t.event) ∧
  (∀ (i : Instr) (s t : State), (∃ p, encode s.cfg i = .op4 p) → (∀ r, i ≠ .syncStep r) → exec i s = .next t →
    t.evCode = 0x0#4 ∧ t.rxReq = none)

/-- The codes of R200's table: each error and event shows its own code, and `0x0` stands for none. -/
def Obligations.ErrorAndEventCodesAsTabulated : Prop :=
  ∀ s : State,
    (s.err = none → s.errCode = 0x0#4) ∧ (∀ ty n, s.err = some (.malformedPayload ty n) → s.errCode = 0x1#4) ∧
    (∀ ty, s.err = some (.unknownType ty) → s.errCode = 0x2#4) ∧ (∀ b, s.err = some (.badMagic b) → s.errCode = 0x3#4) ∧
    (∀ n, s.err = some (.badLength n) → s.errCode = 0x4#4) ∧ (∀ op, s.err = some (.illegalOp op) → s.errCode = 0x5#4) ∧
    (s.event = none → s.evCode = 0x0#4) ∧ (∀ p, s.event = some (.emit p) → s.evCode = 0x8#4) ∧
    (∀ ty, s.event = some (.reportUnknownType ty) → s.evCode = 0x9#4) ∧
    (∀ w g n, s.event = some (.dropShort w g n) → s.evCode = 0xA#4) ∧ (s.event = some .ended → s.evCode = 0xB#4)

/-- The table's FRAME and FRAME.IMAGE_CHUNK rows (R80, R84; that presenting one makes its bytes arrive on RX is the model's
choice, log 11): under a legal Type Table each completes in every state, and appends to RX the bytes magic, type, timestamp,
payload, trailer in this order, after the bytes already there; nothing of the core and nothing else of the environment
changes. (Under another table: `Obligations.IllegalTypeTableIsRefused`.) -/
def Obligations.PresentedFrameArrivesOnRx : Prop :=
  (∀ (s : State) type (ts : Timestamp) payload c0 c1, s.cfg.legal = true →
    ∃ t, exec (.frame type ts payload c0 c1) s = .next t ∧
    t.rx.flatten = s.rx.flatten ++ ([s.cfg.magic, type, ts.b0, ts.b1, ts.b2, ts.b3] ++ payload ++ [c0, c1]) ∧
    CoreKept s t ∧ t = { s with rx := t.rx }) ∧
  (∀ (s : State) (ts : Timestamp) payload c0 c1, s.cfg.legal = true →
    ∃ t, exec (.frameImageChunk ts payload c0 c1) s = .next t ∧
    t.rx.flatten = s.rx.flatten ++ ([s.cfg.magic, 0x00#8, ts.b0, ts.b1, ts.b2, ts.b3] ++ payload ++ [c0, c1]) ∧
    CoreKept s t ∧ t = { s with rx := t.rx })

/-- R30, U3: a configuration is legal exactly when the length of every registered type is at most 48; where `TT[t]` is above 48
for some type, everything that reads the Type Table is refused (the choice U3 allows, log 14). -/
def Obligations.IllegalTypeTableIsRefused : Prop :=
  (∀ cfg : Config, cfg.legal = true ↔ ∀ t l, cfg.tt.lookup t = some l → l.toNat ≤ 48) ∧
  ∀ s : State, (∃ t l, s.cfg.tt.lookup t = some l ∧ 48 < l.toNat) →
    (∀ type ts payload, exec (.pktEncode type ts payload) s = .refused .illegalConfig) ∧
    (∀ f, exec (.pktDecode f) s = .refused .illegalConfig) ∧
    (∀ r, exec (.syncStep r) s = .refused .illegalConfig) ∧
    (∀ type ts payload c0 c1, exec (.frame type ts payload c0 c1) s = .refused .illegalConfig) ∧
    (∀ ts payload c0 c1, exec (.frameImageChunk ts payload c0 c1) s = .refused .illegalConfig) ∧
    (∀ f written, serve (.send f written) s = .refused .illegalConfig)

/-! ### Whole machine -/

/-- R22 to R25: no instruction but SYNC.START and SYNC.STEP writes a register or the buffer of the synchronizer. -/
def Obligations.OnlySyncOperationsWriteSynchronizer : Prop :=
  ∀ (i : Instr) (s t : State), i ≠ .syncStart → (∀ r, i ≠ .syncStep r) → exec i s = .next t → SyncKept s t

/-- R28, R29, R64: no step changes `cfg_magic` or the Type Table. -/
def Obligations.ConfigurationHoldsForTheRun : Prop :=
  ∀ s t : State, step s = .next t → t.cfg = s.cfg

/-- R24, R25, R30, R165: the invariant holds in the state after reset. -/
def Obligations.ResetStateSatisfiesInvariant : Prop := State.reset.Inv

/-- R24, R25, R165: every step from a state with the invariant that answers a next state keeps it: the buffer lists exactly
`fb[0 ..< fill]` in canonical form, the header latches agree with it, `fill` is what `st` and `phase` say. -/
def Obligations.StepKeepsInvariant : Prop :=
  ∀ s t : State, s.Inv → step s = .next t → t.Inv ∧ t.fb.wf

/-- R165, R213, R151: no step from a state with the invariant faults, whatever the environment does; and a SYNC.STEP answered
by the channel always completes ("Exceptions: none"). -/
def Obligations.StepNeverFaults : Prop :=
  (∀ s : State, s.Inv → NoFault (step s)) ∧
  (∀ (s : State) (rest : List Input), s.Inv → s.inputs = .present syncStepPort :: rest →
    ∃ t, step s = .next t ∧ t.inputs = rest ∧ t.err = none)

/-- Decode and encode agree (R80 to R94): for every well-formed instruction, with every operand at every value its port admits,
decoding its presentation gives it back. -/
def Obligations.DecodeOfEncodeGivesInstructionBack : Prop :=
  ∀ (cfg : Config) (i : Instr), i.wf cfg = true → decode cfg (encode cfg i) = .ok i

/-- What decodes is well-formed, and on the wire and for a colour word it is the only presentation of what it decodes to (no
bit is dropped); on the command port the operation code is the one the encoder gives. -/
def Obligations.DecodedInstructionIsWellFormed : Prop :=
  ∀ (cfg : Config) (p : Presented) (i : Instr), decode cfg p = .ok i →
    i.wf cfg = true ∧
    match p with
    | .op4 c => ∃ c', encode cfg i = .op4 c' ∧ c'.op = c.op
    | .wire8 _ => encode cfg i = p
    | .wire16 _ => encode cfg i = p
    | .pix16 _ => encode cfg i = p

/-- Words written out from R80, R84, R89 and R93 decode to the instructions they stand for. -/
def Obligations.WrittenWordsDecode : Prop :=
  decode Config.hardware (.op4 { op := 0b0000#4 }) = .ok .crcInit ∧
  decode Config.hardware (.op4 { op := 0b0100#4, type := 0x00#8, payload := [0xDE#8] }) =
    .ok (.pktEncode 0x00#8 ⟨0x00#8, 0x00#8, 0x00#8, 0x00#8⟩ [0xDE#8]) ∧
  decode Config.hardware (.op4 { op := 0b0111#4, rx := [0x14#8] }) = .ok (.syncStep [0x14#8]) ∧
  decode Config.hardware (.op4 { op := 0b1001#4, p0 := 0x11#8, p1 := 0xAA#8 }) = .ok (.c565Dec 0x11#8 0xAA#8) ∧
  decode Config.hardware (.op4 { op := 0b1110#4 }) = .ok .reservedE ∧
  decode ⟨0x14#8, [(0x01#8, 1#6)]⟩
    (.wire8 [0x14#8, 0x01#8, 0x0A#8, 0x0B#8, 0x0C#8, 0x0D#8, 0xEE#8, 0xC0#8, 0xC1#8]) =
    .ok (.frame 0x01#8 ⟨0x0A#8, 0x0B#8, 0x0C#8, 0x0D#8⟩ [0xEE#8] 0xC0#8 0xC1#8) ∧
  decode Config.hardware (.pix16 0b1111100000011111#16) = .ok (.pixel565 31#5 0#6 31#5)

/-- A step runs the decoded instruction: when the oldest pending input is a presentation that decodes to an instruction, the
step is that instruction's meaning in the state with the input taken; for SYNC.STEP the response ports (R37, R151) first get
what the channel answers to the read the state issues, which is removed from RX, or nothing where no read is issued. That a
step serves the oldest of the pending inputs is the model's choice (log 1), and so is that the channel of R66 answers (log 4).
(What decodes to no instruction, and a timeout: `Obligations.StepOnOtherInputs`.) -/
def Obligations.StepRunsDecodedInstruction : Prop :=
  (∀ (s : State) (p : Presented) (rest : List Input) (i : Instr), s.inputs = .present p :: rest →
    (∀ c, p = .op4 c → c.op ≠ 0x7#4) → decode s.cfg p = .ok i → step s = exec i { s with inputs := rest }) ∧
  (∀ (s : State) (c : CommandPort) (rest : List Input) (n : Nat), s.inputs = .present (.op4 c) :: rest → c.op = 0x7#4 →
    s.readSize = some n →
    step s = exec (.syncStep (channelRead s.rx n).1) { s with inputs := rest, rx := (channelRead s.rx n).2 }) ∧
  (∀ (s : State) (c : CommandPort) (rest : List Input), s.inputs = .present (.op4 c) :: rest → c.op = 0x7#4 →
    s.readSize = none → step s = exec (.syncStep []) { s with inputs := rest })

/-- R240: the reset input: `crc`, `st`, `phase`, `fill` at the values of R35, no byte in the frame buffer; the straps and the
Transport Channel stay. The model's choices: no event, error or read request on the ports (log 5), the records and the other
inputs kept (log 19), the write count kept (log 26), and a step with no pending input changes nothing (log 1). -/
def Obligations.ResetInputRestoresResetValues : Prop :=
  (∀ (s : State) (rest : List Input), s.inputs = .reset :: rest →
    ∃ t, step s = .next t ∧ t.crc = 0xFFFF#16 ∧ t.st = .seekMagic ∧ t.phase = .ts ∧ t.fill = 0#6 ∧
      (∀ a, t.fb.read a = none) ∧ t.event = none ∧ t.err = none ∧ t.rxReq = none ∧ t.cfg = s.cfg ∧ t.rx = s.rx ∧
      t.tx = s.tx ∧ t.txCount = s.txCount ∧ t.events = s.events ∧ t.inputs = rest) ∧
  (∀ s : State, s.inputs = [] → step s = .next s)

/-- R54, R62, U15: outside a scan a step that sends an encoded frame of 8 to 56 bytes records exactly those bytes, once, after
those sent before, and changes nothing of the core. That a write during a scan is refused (R62: "may refuse"), and one of
bytes that are no encoded frame, is the model's choice (log 16). -/
def Obligations.SendOffersEncodedFrameOutsideScan : Prop :=
  (∀ (s : State) (rest : List Input) (type : Byte) (ts : Timestamp) (payload f : List Byte) (written : Nat),
    s.cfg.legal = true → s.inputs = .send f written :: rest → encodePacket s.cfg type ts payload = .ok f →
    (s.st = .ended ∨ (s.st = .seekMagic ∧ s.fill = 0#6)) →
    ∃ t, step s = .next t ∧ t.tx = s.tx ++ [f] ∧ 8 ≤ f.length ∧ f.length ≤ 56 ∧ t.txCount = some written ∧
      CoreKept s t ∧ t.rx = s.rx ∧ t.events = s.events) ∧
  (∀ (s : State) (rest : List Input) (f : List Byte) (written : Nat),
    s.cfg.legal = true → s.inputs = .send f written :: rest →
    ¬ (s.st = .ended ∨ (s.st = .seekMagic ∧ s.fill = 0#6)) → step s = .refused .sendDuringScan) ∧
  (∀ (s : State) (rest : List Input) (f : List Byte) (written : Nat),
    s.cfg.legal = true → s.inputs = .send f written :: rest → isEncodedFrame s.cfg f = false →
    (s.st = .ended ∨ (s.st = .seekMagic ∧ s.fill = 0#6)) → step s = .refused .notAnEncodedFrame)

/-- What a step does with an input that is no instruction; each point is the model's choice. A command port that presents more
than its ports carry is refused by name, and every other one but SYNC.STEP decodes (log 13); a colour word decodes; bytes on
the wire that are no frame of a registered type (R94 (b), (c)), or on WIRE16 none of type `0x00`, arrive on RX after those
already there and change nothing else (log 18), under a legal Type Table (log 14); a timeout closes the last segment of RX (R66), so that what arrives later begins a
new one, and changes nothing else (log 4). -/
def Obligations.StepOnOtherInputs : Prop :=
  (∀ (s : State) (c : CommandPort) (rest : List Input), s.inputs = .present (.op4 c) :: rest →
    (c.op = 0x4#4 → 63 < c.payload.length →
      step s = .refused (.notPresentable (.payloadTooLong c.payload.length))) ∧
    (c.op = 0x5#4 → 63 < c.frame.length → step s = .refused (.notPresentable (.frameTooLong c.frame.length))) ∧
    (c.op = 0xA#4 → 24 < c.pixels.length → step s = .refused (.notPresentable (.tooManyPixels c.pixels.length))) ∧
    (c.op = 0xB#4 → 48 < c.pixelBytes.length →
      step s = .refused (.notPresentable (.pixelBytesTooLong c.pixelBytes.length)))) ∧
  (∀ (cfg : Config) (c : CommandPort), c.op ≠ 0x7#4 → c.payload.length ≤ 63 → c.frame.length ≤ 63 →
    c.pixels.length ≤ 24 → c.pixelBytes.length ≤ 48 → ∃ i, decode cfg (.op4 c) = .ok i) ∧
  (∀ (cfg : Config) (w : Half), ∃ i, decode cfg (.pix16 w) = .ok i) ∧
  (∀ (s : State) (p : Presented) (f : List Byte) (rest : List Input) (e : DecodeError),
    p = .wire8 f ∨ p = .wire16 f → s.inputs = .present p :: rest → decode s.cfg p = .error e →
    (s.cfg.legal = true → ∃ t, step s = .next t ∧ t.rx.flatten = s.rx.flatten ++ f ∧
      t = { s with inputs := rest, rx := t.rx }) ∧
    (s.cfg.legal = false → step s = .refused .illegalConfig)) ∧
  (∀ (s : State) (rest : List Input), s.inputs = .timeout :: rest →
    ∃ t, step s = .next t ∧ t = { s with inputs := rest, rx := t.rx } ∧
      t.rx = (if s.rx = [] then [[]] else s.rx) ++ [[]] ∧
      ∀ bs, channelArrive t.rx bs = (if s.rx = [] then [[]] else s.rx) ++ [bs])
end

