-- ==== Sys2Proof/Laws/Decode.lean ====
section
/-!
SUPPORT. Parsing a frame and putting one together are inverse (spec/30_encoding.md R80 to R82): what a parsed frame is, and
that a whole frame of a registered type parses to its fields.
-/

namespace Sys2Proof

@[simp] theorem Timestamp.toList_length (t : Timestamp) : t.toList.length = 4 := rfl

/-- "A frame with payload length `L` has exactly `8 + L` bytes" (R81). -/
theorem frameBytes_length (cfg : Config) (ff : FrameFields) : (frameBytes cfg ff).length = 8 + ff.payload.length := by
  simp [frameBytes]; omega

theorem byteAt_append_left {s t : List Byte} {i : Nat} (h : i < s.length) : byteAt (s ++ t) i = byteAt s i := by
  simp [byteAt, List.getD, List.getElem?_append_left h]

theorem byteAt_append_right {s t : List Byte} {i : Nat} (h : s.length ≤ i) : byteAt (s ++ t) i = byteAt t (i - s.length) := by
  simp [byteAt, List.getD, List.getElem?_append_right h]

theorem getElem?_byteAt {s : List Byte} {i : Nat} (h : i < s.length) : s[i]? = some (byteAt s i) := by
  simp [byteAt, h]

/-- The slices of a frame put together by its fields give the fields back (R82). -/
theorem sliceFrame_frameBytes (cfg : Config) (ff : FrameFields) : sliceFrame (frameBytes cfg ff) ff.payload.length = ff := by
  obtain ⟨type, ⟨b0, b1, b2, b3⟩, payload, c0, c1⟩ := ff
  have e : frameBytes cfg ⟨type, ⟨b0, b1, b2, b3⟩, payload, c0, c1⟩ =
      [cfg.magic, type, b0, b1, b2, b3] ++ (payload ++ [c0, c1]) := by simp [frameBytes, Timestamp.toList]
  have h6 : ([cfg.magic, type, b0, b1, b2, b3] : List Byte).length = 6 := rfl
  simp only [sliceFrame, e]
  congr 1
  · simp only [slice]
    rw [List.drop_append_of_le_length (by simp), List.drop_of_length_le (by simp), List.nil_append,
      Nat.add_sub_cancel_left, List.take_left]
  · rw [byteAt_append_right (by simp), h6, Nat.add_sub_cancel_left, byteAt_append_right (Nat.le_refl _), Nat.sub_self]; rfl
  · rw [byteAt_append_right (by simp; omega), h6, show 7 + payload.length - 6 = payload.length + 1 by omega,
      byteAt_append_right (by omega), Nat.add_sub_cancel_left]; rfl

/-- A whole frame of a registered type parses to its fields. -/
theorem parseFrame_frameBytes {cfg : Config} {ff : FrameFields} {l : Len} (hl : cfg.tt.lookup ff.type = some l)
    (hp : l.toNat = ff.payload.length) : parseFrame cfg (frameBytes cfg ff) = .ok ff := by
  have hlen := frameBytes_length cfg ff
  have h0 : byteAt (frameBytes cfg ff) 0 = cfg.magic := rfl
  have h1 : byteAt (frameBytes cfg ff) 1 = ff.type := rfl
  unfold parseFrame
  rw [if_neg (by omega), if_neg (by simp [h0]), h1, hl]
  simp only [frameMin]
  rw [if_neg (by omega), hp, sliceFrame_frameBytes]

theorem slice_length {s : List Byte} {i j : Nat} (h : j ≤ s.length) : (slice s i j).length = j - i := by
  simp [slice]; omega

/-- What a byte string that parses is (R82, R132). -/
theorem parseFrame_ok {cfg : Config} {f : List Byte} {ff : FrameFields} (h : parseFrame cfg f = .ok ff) :
    f = frameBytes cfg ff ∧ ∃ l, cfg.tt.lookup ff.type = some l ∧ l.toNat = ff.payload.length := by
  unfold parseFrame at h
  split at h
  · cases h
  · split at h
    · cases h
    · rename_i h2 hm
      split at h
      · cases h
      · rename_i l hl
        split at h
        · cases h
        · rename_i hlen
          simp only [ne_eq, Decidable.not_not, frameMin] at hlen hm
          simp only [Except.ok.injEq] at h
          subst h
          have hp : (sliceFrame f l.toNat).payload.length = l.toNat := by
            simp only [sliceFrame]
            rw [slice_length (by omega)]; omega
          refine ⟨?_, l, hl, hp.symm⟩
          refine List.ext_getElem? fun i => ?_
          have get : ∀ k, k < f.length → f[k]? = some (byteAt f k) := fun k hk => by
            simp [byteAt, List.getD, List.getElem?_eq_getElem hk]
          have e : frameBytes cfg (sliceFrame f l.toNat) =
              [byteAt f 0, byteAt f 1, byteAt f 2, byteAt f 3, byteAt f 4, byteAt f 5] ++
                (slice f 6 (6 + l.toNat) ++ [byteAt f (6 + l.toNat), byteAt f (7 + l.toNat)]) := by
            simp [frameBytes, Timestamp.toList, sliceFrame, hm]
          rw [e]
          have hs : (slice f 6 (6 + l.toNat)).length = l.toNat := hp
          by_cases hi : i < 6
          · rw [List.getElem?_append_left (by simpa using hi), get i (by omega)]
            match i, hi with
            | 0, _ => rfl
            | 1, _ => rfl
            | 2, _ => rfl
            | 3, _ => rfl
            | 4, _ => rfl
            | 5, _ => rfl
          · rw [List.getElem?_append_right (by simp; omega)]
            simp only [List.length_cons, List.length_nil, Nat.zero_add, Nat.reduceAdd]
            by_cases hi2 : i < 6 + l.toNat
            · rw [List.getElem?_append_left (by omega)]
              simp only [slice]
              rw [List.getElem?_take_of_lt (by omega), List.getElem?_drop]
              congr 1; omega
            · rw [List.getElem?_append_right (by omega), hs]
              by_cases hi3 : i = 6 + l.toNat
              · subst hi3
                rw [get _ (by omega), show 6 + l.toNat - 6 - l.toNat = 0 by omega]; rfl
              · by_cases hi4 : i = 7 + l.toNat
                · subst hi4
                  rw [get _ (by omega), show 7 + l.toNat - 6 - l.toNat = 1 by omega]; rfl
                · rw [List.getElem?_eq_none (by omega), List.getElem?_eq_none (by simp; omega)]

/-- The bits of a packed word (R89). -/
theorem getLsbD_pack565 (r5 : BitVec 5) (g6 : BitVec 6) (b5 : BitVec 5) (i : Nat) (hi : i < 16) :
    (pack565 r5 g6 b5).getLsbD i =
      if i < 5 then b5.getLsbD i else if i < 11 then g6.getLsbD (i - 5) else r5.getLsbD (i - 11) := by
  by_cases h5 : i < 5
  · have h11 : i < 11 := by omega
    simp [pack565, h5, h11, hi]
  · by_cases h11 : i < 11
    · have := BitVec.getLsbD_of_ge b5 i (by omega)
      simp [pack565, h5, h11, hi, this]
    · have := BitVec.getLsbD_of_ge b5 i (by omega)
      have := BitVec.getLsbD_of_ge g6 (i - 5) (by omega)
      simp [pack565, h5, h11, hi, *]

/-- The colour fields of a packed word are the fields packed (R89, R92). -/
theorem field5R_pack565 (r5 : BitVec 5) (g6 : BitVec 6) (b5 : BitVec 5) : field5R (pack565 r5 g6 b5) = r5 := by
  ext i hi
  have h := getLsbD_pack565 r5 g6 b5 (11 + i) (by omega)
  rw [if_neg (by omega), if_neg (by omega), Nat.add_sub_cancel_left] at h
  simpa [field5R, BitVec.getLsbD_eq_getElem hi] using h

theorem field6G_pack565 (r5 : BitVec 5) (g6 : BitVec 6) (b5 : BitVec 5) : field6G (pack565 r5 g6 b5) = g6 := by
  ext i hi
  have h := getLsbD_pack565 r5 g6 b5 (5 + i) (by omega)
  rw [if_neg (by omega), if_pos (by omega), Nat.add_sub_cancel_left] at h
  simpa [field6G, BitVec.getLsbD_eq_getElem hi] using h

theorem field5B_pack565 (r5 : BitVec 5) (g6 : BitVec 6) (b5 : BitVec 5) : field5B (pack565 r5 g6 b5) = b5 := by
  ext i hi
  have h := getLsbD_pack565 r5 g6 b5 i (by omega)
  rw [if_pos hi] at h
  simpa [field5B, BitVec.getLsbD_eq_getElem hi] using h

/-- A word is its fields packed. -/
theorem pack565_fields (w : Half) : pack565 (field5R w) (field6G w) (field5B w) = w := by
  ext i hi
  rw [← BitVec.getLsbD_eq_getElem hi, getLsbD_pack565 _ _ _ i hi, ← BitVec.getLsbD_eq_getElem hi]
  split
  · rename_i h; simp [field5B, h]
  · split
    · rename_i h5 h11
      have h6 : i - 5 < 6 := by omega
      simp [field6G, h6, show 5 + (i - 5) = i by omega]
    · rename_i h5 h11
      have h6 : i - 11 < 5 := by omega
      simp [field5R, h6, show 11 + (i - 11) = i by omega]

end Sys2Proof
end

