-- ==== Sys2Proof/Laws/Memory.lean ====
section
/-!
SUPPORT. The frame buffer: a read after a write, a write leaves every other byte alone, and every operation keeps the
canonical form (spec/10_state.md R24).
-/

namespace Sys2Proof.Machine

/-! ### Reading back -/

@[simp] theorem Memory.read_nil (a : Nat) : Memory.read [] a = none := rfl

theorem Memory.read_write (m : Memory) (a : Nat) (b : Byte) (x : Nat) :
    (m.write a b).read x = if x = a then some b else m.read x := by
  induction m with
  | nil => simp [Memory.write, Memory.read, eq_comm]
  | cons c m ih =>
    obtain ⟨k, v⟩ := c
    by_cases h : x = a
    · subst h
      by_cases h1 : x < k
      · simp [Memory.write, Memory.read, h1]
      · by_cases h2 : x = k
        · simp [Memory.write, Memory.read, h2]
        · simp [Memory.write, Memory.read, h1, h2, Ne.symm h2, ih]
    · have h' : ¬ a = x := Ne.symm h
      by_cases h1 : a < k
      · simp [Memory.write, Memory.read, h1, h, h']
      · by_cases h2 : a = k
        · subst h2
          simp [Memory.write, Memory.read, h, h']
        · simp [Memory.write, Memory.read, h1, h2, h, ih]

theorem Memory.read_write_same (m : Memory) (a : Nat) (b : Byte) : (m.write a b).read a = some b := by
  simp [Memory.read_write]

theorem Memory.read_write_other (m : Memory) {a x : Nat} (b : Byte) (h : x ≠ a) : (m.write a b).read x = m.read x := by
  simp [Memory.read_write, h]

theorem Memory.read_writeBytes (m : Memory) (a : Nat) (bs : List Byte) (x : Nat) :
    (m.writeBytes a bs).read x = if a ≤ x ∧ x < a + bs.length then bs[x - a]? else m.read x := by
  induction bs generalizing m a with
  | nil =>
    have h : ¬ (a ≤ x ∧ x < a + 0) := by omega
    simp [Memory.writeBytes]
  | cons b bs ih =>
    simp only [Memory.writeBytes, ih, Memory.read_write, List.length_cons]
    by_cases hx : x = a
    · subst hx
      simp
    · by_cases h : a + 1 ≤ x ∧ x < a + 1 + bs.length
      · have h' : a ≤ x ∧ x < a + (bs.length + 1) := by omega
        have e : x - a = (x - (a + 1)) + 1 := by omega
        rw [if_pos h, if_pos h', e, List.getElem?_cons_succ]
      · have h' : ¬ (a ≤ x ∧ x < a + (bs.length + 1)) := by omega
        rw [if_neg h, if_neg h', if_neg hx]

theorem Memory.read_below (m : Memory) (n x : Nat) : (m.below n).read x = if x < n then m.read x else none := by
  induction m with
  | nil => simp [Memory.below, Memory.read]
  | cons c m ih =>
    obtain ⟨k, v⟩ := c
    simp only [Memory.below, List.filter_cons] at ih ⊢
    by_cases hk : k < n
    · simp only [hk, decide_true, if_true, Memory.read, ih]
      by_cases hx : k = x
      · subst hx; simp [hk]
      · simp [hx]
    · simp only [hk, decide_false, Memory.read]
      by_cases hx : k = x
      · subst hx; simpa [hk] using ih
      · simpa [hx] using ih

/-- What a successful read of several bytes says of each. -/
theorem Memory.readBytes_some {m : Memory} {a n : Nat} {f : List Byte} (h : m.readBytes a n = some f) :
    f.length = n ∧ ∀ i, i < n → m.read (a + i) = f[i]? := by
  induction n generalizing a f with
  | zero => simp [Memory.readBytes] at h; subst h; simp
  | succ n ih =>
    simp only [Memory.readBytes] at h
    split at h
    · rename_i b bs hb hbs
      obtain ⟨hl, hr⟩ := ih hbs
      simp only [Option.some.injEq] at h
      subst h
      refine ⟨by simp [hl], fun i hi => ?_⟩
      cases i with
      | zero => simpa using hb
      | succ i =>
        have := hr i (by omega)
        rw [show a + (i + 1) = a + 1 + i by omega, this]
        simp
    · simp at h

/-! ### The canonical form -/

theorem Memory.wf_nil : Memory.wf [] := by simp [Memory.wf]

theorem Memory.key_of_write {m : Memory} {a : Nat} {b : Byte} {c : Host.Cell} (h : c ∈ m.write a b) :
    c.1 = a ∨ c ∈ m := by
  induction m with
  | nil => simp [Memory.write] at h; simp [h]
  | cons d m ih =>
    obtain ⟨k, v⟩ := d
    simp only [Memory.write] at h
    split_ifs at h with h1 h2
    · rcases List.mem_cons.1 h with h | h
      · exact .inl (by rw [h])
      · exact .inr h
    · rcases List.mem_cons.1 h with h | h
      · exact .inl (by rw [h])
      · exact .inr (List.mem_cons_of_mem _ h)
    · rcases List.mem_cons.1 h with h | h
      · exact .inr (by rw [h]; exact List.mem_cons_self ..)
      · exact (ih h).imp_right (List.mem_cons_of_mem _)

theorem Memory.wf_write {m : Memory} {a : Nat} (b : Byte) (ha : a < frameMax) (h : m.wf) : (m.write a b).wf := by
  refine ⟨?_, fun c hc => ?_⟩
  · induction m with
    | nil => simp [Memory.write]
    | cons d m ih =>
      obtain ⟨k, v⟩ := d
      obtain ⟨hp, hb⟩ := h
      have hp' := List.pairwise_cons.1 hp
      simp only [Memory.write]
      split_ifs with h1 h2
      · refine List.pairwise_cons.2 ⟨fun c hc => ?_, hp⟩
        rcases List.mem_cons.1 hc with hc | hc
        · subst hc; exact h1
        · exact Nat.lt_trans h1 (hp'.1 c hc)
      · subst h2
        exact List.pairwise_cons.2 ⟨fun c hc => hp'.1 c hc, hp'.2⟩
      · refine List.pairwise_cons.2 ⟨fun c hc => ?_, ih ⟨hp'.2, fun c hc => hb c (List.mem_cons_of_mem _ hc)⟩⟩
        rcases Memory.key_of_write hc with hc | hc
        · show k < c.1
          omega
        · exact hp'.1 c hc
  · rcases Memory.key_of_write hc with hc | hc
    · omega
    · exact h.2 c hc

theorem Memory.wf_writeBytes {m : Memory} {a : Nat} {bs : List Byte} (ha : a + bs.length ≤ frameMax) (h : m.wf) :
    (m.writeBytes a bs).wf := by
  induction bs generalizing m a with
  | nil => exact h
  | cons b bs ih =>
    simp only [List.length_cons] at ha
    exact ih (by omega) (Memory.wf_write b (by omega) h)

theorem Memory.wf_below {m : Memory} (n : Nat) (h : m.wf) : (m.below n).wf :=
  ⟨h.1.filter _, fun c hc => h.2 c (List.mem_filter.1 hc).1⟩

/-! ### Buffers filled from index 0 -/

/-- A write just past the last byte extends the buffer by one. -/
theorem Memory.keys_write_end {m : Memory} {n : Nat} (b : Byte) (h : ∀ c ∈ m, c.1 < n) : m.write n b = m ++ [(n, b)] := by
  induction m with
  | nil => rfl
  | cons d m ih =>
    obtain ⟨k, v⟩ := d
    have hk : k < n := h _ (List.mem_cons_self ..)
    have h1 : ¬ n < k := by omega
    have h2 : ¬ n = k := by omega
    simp [Memory.write, h1, h2, ih fun c hc => h c (List.mem_cons_of_mem _ hc)]

theorem Memory.keys_writeBytes_end {m : Memory} {n : Nat} (bs : List Byte) (h : m.map Prod.fst = List.range n) :
    (m.writeBytes n bs).map Prod.fst = List.range (n + bs.length) := by
  induction bs generalizing m n with
  | nil => simpa [Memory.writeBytes] using h
  | cons b bs ih =>
    have hlt : ∀ c ∈ m, c.1 < n := fun c hc => by
      have : c.1 ∈ m.map Prod.fst := List.mem_map_of_mem hc
      rw [h] at this
      exact List.mem_range.1 this
    simp only [Memory.writeBytes, List.length_cons]
    rw [ih (m := m.write n b) (n := n + 1) (by rw [Memory.keys_write_end b hlt]; simp [h, List.range_succ])]
    congr 1; omega

theorem Memory.below_of_keys {m : Memory} {n k : Nat} (h : m.map Prod.fst = List.range n) (hk : n ≤ k) : m.below k = m := by
  refine List.filter_eq_self.2 fun c hc => ?_
  have : c.1 ∈ m.map Prod.fst := List.mem_map_of_mem hc
  rw [h] at this
  have := List.mem_range.1 this
  simp; omega

@[simp] theorem Memory.below_zero (m : Memory) : m.below 0 = [] := by simp [Memory.below]

theorem Memory.wf_of_keys {m : Memory} {n : Nat} (h : m.map Prod.fst = List.range n) (hn : n ≤ frameMax) : m.wf := by
  refine ⟨?_, fun c hc => ?_⟩
  · have := List.pairwise_lt_range (n := n)
    rw [← h, List.pairwise_map] at this
    exact this
  · have : c.1 ∈ m.map Prod.fst := List.mem_map_of_mem hc
    rw [h] at this
    have := List.mem_range.1 this
    omega

/-- A byte is listed exactly below the fill count. -/
theorem Memory.read_isSome_of_keys {m : Memory} {n : Nat} (h : m.map Prod.fst = List.range n) {a : Nat} (ha : a < n) :
    ∃ b, m.read a = some b := by
  have hin : a ∈ m.map Prod.fst := by rw [h]; exact List.mem_range.2 ha
  clear h
  induction m with
  | nil => simp at hin
  | cons c m ih =>
    obtain ⟨k, v⟩ := c
    simp only [Memory.read]
    by_cases hk : k = a
    · exact ⟨v, by simp [hk]⟩
    · simp only [hk, if_false]
      refine ih ?_
      simp only [List.map_cons, List.mem_cons] at hin
      rcases hin with hin | hin
      · exact absurd hin.symm hk
      · exact hin

/-- All of a filled range can be read. -/
theorem Memory.readBytes_of_reads {m : Memory} {a n : Nat} (h : ∀ i, i < n → ∃ b, m.read (a + i) = some b) :
    ∃ f, m.readBytes a n = some f := by
  induction n generalizing a with
  | zero => exact ⟨[], rfl⟩
  | succ n ih =>
    obtain ⟨b, hb⟩ := h 0 (by omega)
    obtain ⟨f, hf⟩ := ih (a := a + 1) fun i hi => by
      have := h (i + 1) (by omega)
      rwa [show a + (i + 1) = a + 1 + i by omega] at this
    refine ⟨b :: f, ?_⟩
    simp only [Nat.add_zero] at hb
    simp [Memory.readBytes, hb, hf]

end Sys2Proof.Machine
end

