-- ==== Sys2Proof/Laws/Operands.lean ====
section
/-!
SUPPORT. The CRC step is linear and loses nothing, the register runs over a concatenation in order (spec/40_crc.md R111 to
R118); the two bytes of a 16-bit value; the colour fields as numbers; the sizes of packed pixels (spec/43_color.md R184, R185).
-/

namespace Sys2Proof.Machine

/-! ### The CRC -/

theorem crcBitStep_xor (a b : Half) : crcBitStep (a ^^^ b) = crcBitStep a ^^^ crcBitStep b := by
  simp only [crcBitStep, BitVec.getLsbD_xor, BitVec.shiftLeft_xor_distrib]
  cases ha : a.getLsbD 15 <;> cases hb : b.getLsbD 15 <;> simp
  · rw [BitVec.xor_assoc]
  · rw [BitVec.xor_assoc, BitVec.xor_assoc, BitVec.xor_comm crcPoly]
  · rw [BitVec.xor_assoc, BitVec.xor_comm crcPoly, BitVec.xor_assoc (b <<< 1), BitVec.xor_self, BitVec.xor_zero]

theorem crcBitSteps_xor (n : Nat) (a b : Half) : crcBitSteps n (a ^^^ b) = crcBitSteps n a ^^^ crcBitSteps n b := by
  induction n generalizing a b with
  | zero => rfl
  | succ n ih => simp only [crcBitSteps, crcBitStep_xor, ih]

/-- No value but zero is stepped to zero: the polynomial has its low bit set. -/
theorem crcBitStep_eq_zero {c : Half} (h : crcBitStep c = 0#16) : c = 0#16 := by
  unfold crcBitStep at h
  split at h
  · have := congrArg (fun v => BitVec.getLsbD v 0) h
    simp [crcPoly] at this
  · rename_i hc
    ext i hi
    by_cases h15 : i = 15
    · subst h15
      simpa [BitVec.getLsbD_eq_getElem] using hc
    · have := congrArg (fun v => BitVec.getLsbD v (i + 1)) h
      have hi' : i + 1 < 16 := by omega
      simpa [hi', BitVec.getLsbD_eq_getElem hi] using this

theorem crcBitSteps_eq_zero {n : Nat} {c : Half} (h : crcBitSteps n c = 0#16) : c = 0#16 := by
  induction n generalizing c with
  | zero => exact h
  | succ n ih => exact crcBitStep_eq_zero (ih h)

@[simp] theorem crcRun_nil (c : Half) : crcRun c [] = c := rfl

@[simp] theorem crcRun_cons (c : Half) (b : Byte) (s : List Byte) : crcRun c (b :: s) = crcRun (crcByteStep c b) s := rfl

/-- The register runs over a concatenation in order. -/
theorem crcRun_append (c : Half) (s t : List Byte) : crcRun c (s ++ t) = crcRun (crcRun c s) t := by
  induction s generalizing c with
  | nil => rfl
  | cons b s ih => exact ih _

theorem crcRun_foldl (c : Half) (s : List Byte) : crcRun c s = s.foldl crcByteStep c := by
  induction s generalizing c with
  | nil => rfl
  | cons b s ih => exact ih _

/-- The byte step is linear. -/
theorem crcByteStep_xor (c d : Half) (b e : Byte) :
    crcByteStep (c ^^^ d) (b ^^^ e) = crcByteStep c b ^^^ crcByteStep d e := by
  unfold crcByteStep
  rw [← crcBitSteps_xor]
  congr 1
  rw [BitVec.setWidth_xor, BitVec.shiftLeft_xor_distrib]
  ac_rfl

/-- Registers that differ still differ after any byte string. -/
theorem crcRun_xor_ne (c d : Half) (s : List Byte) (hd : d ≠ 0#16) : crcRun (c ^^^ d) s ≠ crcRun c s := by
  induction s generalizing c d with
  | nil =>
    intro h
    apply hd
    have := congrArg (fun v => c ^^^ v) h
    simpa [← BitVec.xor_assoc] using this
  | cons b s ih =>
    simp only [crcRun_cons]
    have h0 := crcByteStep_xor c d b 0#8
    simp only [BitVec.xor_zero] at h0
    rw [h0]
    apply ih
    intro h
    apply hd
    simpa using crcBitSteps_eq_zero h

/-- Bit steps that meet a clear top bit each time only shift. -/
theorem crcBitSteps_clear (n : Nat) (hn : n ≤ 8) (x : Half)
    (h : ∀ i, i < 16 → 16 - n ≤ i → x.getLsbD i = false) : crcBitSteps n x = x <<< n := by
  induction n generalizing x with
  | zero => simp [crcBitSteps]
  | succ n ih =>
    have h15 : x.getLsbD 15 = false := h 15 (by omega) (by omega)
    simp only [crcBitSteps]
    rw [show crcBitStep x = x <<< 1 by unfold crcBitStep; rw [if_neg (by rw [h15]; simp)]]
    rw [ih (by omega)]
    · rw [← BitVec.shiftLeft_add, Nat.add_comm]
    · intro i hi hn
      simp only [BitVec.getLsbD_shiftLeft, Bool.and_eq_false_iff]
      by_cases h0 : i < 1
      · simp [h0]
      · exact .inr (h _ (by omega) (by omega))

/-! ### Two bytes of a 16-bit value -/

@[simp] theorem be16_length (v : Half) : (be16 v).length = 2 := rfl

theorem fromBe16_be16 (v : Half) : fromBe16 (v.extractLsb' 8 8) (v.extractLsb' 0 8) = v := by
  ext i hi
  by_cases h : i < 8
  · simp [fromBe16, h, BitVec.getLsbD_eq_getElem hi]
  · have e : 8 + (i - 8) = i := by omega
    have h' : i - 8 < 8 := by omega
    simp [fromBe16, h, h', e, BitVec.getLsbD_eq_getElem hi]

theorem be16_fromBe16 (b0 b1 : Byte) : be16 (fromBe16 b0 b1) = [b0, b1] := by
  simp only [be16, List.cons.injEq, and_true]
  constructor
  · ext i hi
    have h' : 8 + i < 16 := by omega
    simp [fromBe16, hi, h']
  · ext i hi
    have h' : i < 16 := by omega
    simp [fromBe16, hi, h']

theorem be16_eq_iff (v : Half) (b0 b1 : Byte) : be16 v = [b0, b1] ↔ v = fromBe16 b0 b1 := by
  constructor
  · intro h
    simp only [be16, List.cons.injEq, and_true] at h
    rw [← h.1, ← h.2, fromBe16_be16]
  · rintro rfl
    exact be16_fromBe16 b0 b1

theorem be16_toNat (w : Half) : be16 w = [BitVec.ofNat 8 (w.toNat / 256), BitVec.ofNat 8 w.toNat] := by
  simp only [be16, List.cons.injEq, and_true]
  constructor
  · apply BitVec.eq_of_toNat_eq
    simp [BitVec.extractLsb'_toNat, Nat.shiftRight_eq_div_pow]
  · apply BitVec.eq_of_toNat_eq
    simp [BitVec.extractLsb'_toNat]

theorem fromBe16_toNat (a b : Byte) : (fromBe16 a b).toNat = a.toNat * 256 + b.toNat := by
  have h1 := a.isLt
  have h2 := b.isLt
  simp only [fromBe16, BitVec.toNat_or, BitVec.toNat_shiftLeft, BitVec.toNat_setWidth]
  rw [Nat.mod_eq_of_lt (show a.toNat < 2 ^ 16 by omega), Nat.mod_eq_of_lt (show b.toNat < 2 ^ 16 by omega),
    Nat.mod_eq_of_lt (by rw [Nat.shiftLeft_eq]; omega), ← Nat.shiftLeft_add_eq_or_of_lt (show b.toNat < 2 ^ 8 by omega),
    Nat.shiftLeft_eq]

/-! ### Colour fields as numbers -/

theorem pack565_toNat (r5 : BitVec 5) (g6 : BitVec 6) (b5 : BitVec 5) :
    (pack565 r5 g6 b5).toNat = r5.toNat * 2048 + g6.toNat * 32 + b5.toNat := by
  have h1 := r5.isLt
  have h2 := g6.isLt
  have h3 := b5.isLt
  have h : pack565 r5 g6 b5 = r5 ++ g6 ++ b5 := by
    ext i hi
    rw [← BitVec.getLsbD_eq_getElem hi, getLsbD_pack565 _ _ _ i hi, ← BitVec.getLsbD_eq_getElem hi]
    simp only [BitVec.getLsbD_append]
    by_cases h : i < 5
    · simp [h]
    · by_cases h' : i < 11
      · simp [h, h', show i - 5 < 6 by omega]
      · simp [h, h', show ¬ i - 5 < 6 by omega, show i - 5 - 6 = i - 11 by omega]
  rw [h]
  simp only [BitVec.toNat_append]
  rw [← Nat.shiftLeft_add_eq_or_of_lt h3, ← Nat.shiftLeft_add_eq_or_of_lt h2]
  simp only [Nat.shiftLeft_eq]
  omega

theorem trunc5_toNat (v : Byte) : (trunc5 v).toNat = v.toNat / 8 := by
  have := v.isLt
  simp only [trunc5, BitVec.extractLsb'_toNat, Nat.shiftRight_eq_div_pow, Nat.reducePow]
  omega

theorem trunc6_toNat (v : Byte) : (trunc6 v).toNat = v.toNat / 4 := by
  have := v.isLt
  simp only [trunc6, BitVec.extractLsb'_toNat, Nat.shiftRight_eq_div_pow, Nat.reducePow]
  omega

theorem expand5_toNat : ∀ v : BitVec 5, (expand5 v).toNat = v.toNat * 8 + v.toNat / 4 := by decide +kernel

theorem expand6_toNat : ∀ v : BitVec 6, (expand6 v).toNat = v.toNat * 4 + v.toNat / 16 := by decide +kernel

theorem field5R_toNat (w : Half) : (field5R w).toNat = w.toNat / 2048 := by
  have := w.isLt
  simp only [field5R, BitVec.extractLsb'_toNat, Nat.shiftRight_eq_div_pow, Nat.reducePow]
  omega

theorem field6G_toNat (w : Half) : (field6G w).toNat = w.toNat / 32 % 64 := by
  simp [field6G, BitVec.extractLsb'_toNat, Nat.shiftRight_eq_div_pow]

theorem field5B_toNat (w : Half) : (field5B w).toNat = w.toNat % 32 := by
  simp [field5B, BitVec.extractLsb'_toNat]

/-! ### Pixels -/

@[simp] theorem encodeColor_length (c : Color) : (encodeColor c).length = 2 := rfl

/-- "a byte string of `2n` bytes" (R184). -/
theorem packPixels_length (cs : List Color) : (packPixels cs).length = 2 * cs.length := by
  induction cs with
  | nil => rfl
  | cons c cs ih => simp only [packPixels, List.length_append, ih, encodeColor_length, List.length_cons]; omega

/-- "the exact pixel count per frame is `payload_length / 2`" (R185). -/
theorem unpackPixels_length (bs : List Byte) : (unpackPixels bs).length = bs.length / 2 := by
  induction bs using unpackPixels.induct with
  | case1 p0 p1 rest ih => simp only [unpackPixels, List.length_cons, ih]; omega
  | case2 bs h =>
    match bs, h with
    | [], _ => simp [unpackPixels]
    | [b], _ => simp [unpackPixels]
    | p0 :: p1 :: rest, h => exact (h p0 p1 rest rfl).elim

end Sys2Proof.Machine
end

