-- ==== Sys2Proof/Laws/State.lean ====
section
/-!
SUPPORT. One lemma per field for every update of State the operations make, so that no later proof unfolds a record update.
-/

namespace Sys2Proof.Machine

variable (s : State)

/-! ### `complete` -/

@[simp] theorem complete_cfg (r : Result) : (s.complete r).cfg = s.cfg := rfl
@[simp] theorem complete_crc (r : Result) : (s.complete r).crc = s.crc := rfl
@[simp] theorem complete_st (r : Result) : (s.complete r).st = s.st := rfl
@[simp] theorem complete_phase (r : Result) : (s.complete r).phase = s.phase := rfl
@[simp] theorem complete_fb (r : Result) : (s.complete r).fb = s.fb := rfl
@[simp] theorem complete_fill (r : Result) : (s.complete r).fill = s.fill := rfl
@[simp] theorem complete_ftype (r : Result) : (s.complete r).ftype = s.ftype := rfl
@[simp] theorem complete_flen (r : Result) : (s.complete r).flen = s.flen := rfl
@[simp] theorem complete_result (r : Result) : (s.complete r).result = r := rfl
@[simp] theorem complete_err (r : Result) : (s.complete r).err = none := rfl
@[simp] theorem complete_event (r : Result) : (s.complete r).event = none := rfl
@[simp] theorem complete_rxReq (r : Result) : (s.complete r).rxReq = none := rfl
@[simp] theorem complete_txCount (r : Result) : (s.complete r).txCount = s.txCount := rfl
@[simp] theorem complete_rx (r : Result) : (s.complete r).rx = s.rx := rfl
@[simp] theorem complete_tx (r : Result) : (s.complete r).tx = s.tx := rfl
@[simp] theorem complete_events (r : Result) : (s.complete r).events = s.events := rfl
@[simp] theorem complete_inputs (r : Result) : (s.complete r).inputs = s.inputs := rfl
@[simp] theorem complete_freeCount (r : Result) : (s.complete r).freeCount = s.freeCount := rfl

/-! ### `raise` -/

@[simp] theorem raise_cfg (e : OpError) : (s.raise e).cfg = s.cfg := rfl
@[simp] theorem raise_crc (e : OpError) : (s.raise e).crc = s.crc := rfl
@[simp] theorem raise_st (e : OpError) : (s.raise e).st = s.st := rfl
@[simp] theorem raise_phase (e : OpError) : (s.raise e).phase = s.phase := rfl
@[simp] theorem raise_fb (e : OpError) : (s.raise e).fb = s.fb := rfl
@[simp] theorem raise_fill (e : OpError) : (s.raise e).fill = s.fill := rfl
@[simp] theorem raise_ftype (e : OpError) : (s.raise e).ftype = s.ftype := rfl
@[simp] theorem raise_flen (e : OpError) : (s.raise e).flen = s.flen := rfl
@[simp] theorem raise_result (e : OpError) : (s.raise e).result = Config.freeResult s.freeCount := rfl
@[simp] theorem raise_err (e : OpError) : (s.raise e).err = some e := rfl
@[simp] theorem raise_event (e : OpError) : (s.raise e).event = none := rfl
@[simp] theorem raise_rxReq (e : OpError) : (s.raise e).rxReq = none := rfl
@[simp] theorem raise_txCount (e : OpError) : (s.raise e).txCount = s.txCount := rfl
@[simp] theorem raise_rx (e : OpError) : (s.raise e).rx = s.rx := rfl
@[simp] theorem raise_tx (e : OpError) : (s.raise e).tx = s.tx := rfl
@[simp] theorem raise_events (e : OpError) : (s.raise e).events = s.events := rfl
@[simp] theorem raise_inputs (e : OpError) : (s.raise e).inputs = s.inputs := rfl
@[simp] theorem raise_freeCount (e : OpError) : (s.raise e).freeCount = s.freeCount + 1 := rfl

/-! ### `produce` -/

@[simp] theorem produce_cfg (req : Option Nat) (ev : Option Event) (r : Result) : (s.produce req ev r).cfg = s.cfg := rfl
@[simp] theorem produce_crc (req : Option Nat) (ev : Option Event) (r : Result) : (s.produce req ev r).crc = s.crc := rfl
@[simp] theorem produce_st (req : Option Nat) (ev : Option Event) (r : Result) : (s.produce req ev r).st = s.st := rfl
@[simp] theorem produce_phase (req : Option Nat) (ev : Option Event) (r : Result) : (s.produce req ev r).phase = s.phase := rfl
@[simp] theorem produce_fb (req : Option Nat) (ev : Option Event) (r : Result) : (s.produce req ev r).fb = s.fb := rfl
@[simp] theorem produce_fill (req : Option Nat) (ev : Option Event) (r : Result) : (s.produce req ev r).fill = s.fill := rfl
@[simp] theorem produce_ftype (req : Option Nat) (ev : Option Event) (r : Result) : (s.produce req ev r).ftype = s.ftype := rfl
@[simp] theorem produce_flen (req : Option Nat) (ev : Option Event) (r : Result) : (s.produce req ev r).flen = s.flen := rfl
@[simp] theorem produce_result (req : Option Nat) (ev : Option Event) (r : Result) : (s.produce req ev r).result = r := rfl
@[simp] theorem produce_err (req : Option Nat) (ev : Option Event) (r : Result) : (s.produce req ev r).err = none := rfl
@[simp] theorem produce_event (req : Option Nat) (ev : Option Event) (r : Result) : (s.produce req ev r).event = ev := rfl
@[simp] theorem produce_rxReq (req : Option Nat) (ev : Option Event) (r : Result) : (s.produce req ev r).rxReq = req := rfl
@[simp] theorem produce_txCount (req : Option Nat) (ev : Option Event) (r : Result) : (s.produce req ev r).txCount = s.txCount := rfl
@[simp] theorem produce_rx (req : Option Nat) (ev : Option Event) (r : Result) : (s.produce req ev r).rx = s.rx := rfl
@[simp] theorem produce_tx (req : Option Nat) (ev : Option Event) (r : Result) : (s.produce req ev r).tx = s.tx := rfl
@[simp] theorem produce_events (req : Option Nat) (ev : Option Event) (r : Result) : (s.produce req ev r).events = s.events ++ ev.toList := rfl
@[simp] theorem produce_inputs (req : Option Nat) (ev : Option Event) (r : Result) : (s.produce req ev r).inputs = s.inputs := rfl
@[simp] theorem produce_freeCount (req : Option Nat) (ev : Option Event) (r : Result) : (s.produce req ev r).freeCount = s.freeCount := rfl

/-! ### `setFill` -/

@[simp] theorem setFill_cfg (n : Nat) : (s.setFill n).cfg = s.cfg := rfl
@[simp] theorem setFill_crc (n : Nat) : (s.setFill n).crc = s.crc := rfl
@[simp] theorem setFill_st (n : Nat) : (s.setFill n).st = s.st := rfl
@[simp] theorem setFill_phase (n : Nat) : (s.setFill n).phase = s.phase := rfl
@[simp] theorem setFill_fb (n : Nat) : (s.setFill n).fb = s.fb.below n := rfl
@[simp] theorem setFill_fill (n : Nat) : (s.setFill n).fill = BitVec.ofNat 6 n := rfl
@[simp] theorem setFill_ftype (n : Nat) : (s.setFill n).ftype = s.ftype := rfl
@[simp] theorem setFill_flen (n : Nat) : (s.setFill n).flen = s.flen := rfl
@[simp] theorem setFill_result (n : Nat) : (s.setFill n).result = s.result := rfl
@[simp] theorem setFill_err (n : Nat) : (s.setFill n).err = s.err := rfl
@[simp] theorem setFill_event (n : Nat) : (s.setFill n).event = s.event := rfl
@[simp] theorem setFill_rxReq (n : Nat) : (s.setFill n).rxReq = s.rxReq := rfl
@[simp] theorem setFill_txCount (n : Nat) : (s.setFill n).txCount = s.txCount := rfl
@[simp] theorem setFill_rx (n : Nat) : (s.setFill n).rx = s.rx := rfl
@[simp] theorem setFill_tx (n : Nat) : (s.setFill n).tx = s.tx := rfl
@[simp] theorem setFill_events (n : Nat) : (s.setFill n).events = s.events := rfl
@[simp] theorem setFill_inputs (n : Nat) : (s.setFill n).inputs = s.inputs := rfl
@[simp] theorem setFill_freeCount (n : Nat) : (s.setFill n).freeCount = s.freeCount := rfl

/-! ### `dropFrame` -/

@[simp] theorem dropFrame_cfg (req : Nat) (ev : Event) : (s.dropFrame req ev).cfg = s.cfg := rfl
@[simp] theorem dropFrame_crc (req : Nat) (ev : Event) : (s.dropFrame req ev).crc = s.crc := rfl
@[simp] theorem dropFrame_st (req : Nat) (ev : Event) : (s.dropFrame req ev).st = .seekMagic := rfl
@[simp] theorem dropFrame_phase (req : Nat) (ev : Event) : (s.dropFrame req ev).phase = s.phase := rfl
@[simp] theorem dropFrame_fb (req : Nat) (ev : Event) : (s.dropFrame req ev).fb = s.fb.below 0 := rfl
@[simp] theorem dropFrame_fill (req : Nat) (ev : Event) : (s.dropFrame req ev).fill = 0#6 := rfl
@[simp] theorem dropFrame_ftype (req : Nat) (ev : Event) : (s.dropFrame req ev).ftype = s.ftype := rfl
@[simp] theorem dropFrame_flen (req : Nat) (ev : Event) : (s.dropFrame req ev).flen = s.flen := rfl
@[simp] theorem dropFrame_result (req : Nat) (ev : Event) : (s.dropFrame req ev).result = .noResult := rfl
@[simp] theorem dropFrame_err (req : Nat) (ev : Event) : (s.dropFrame req ev).err = none := rfl
@[simp] theorem dropFrame_event (req : Nat) (ev : Event) : (s.dropFrame req ev).event = some ev := rfl
@[simp] theorem dropFrame_rxReq (req : Nat) (ev : Event) : (s.dropFrame req ev).rxReq = some req := rfl
@[simp] theorem dropFrame_txCount (req : Nat) (ev : Event) : (s.dropFrame req ev).txCount = s.txCount := rfl
@[simp] theorem dropFrame_rx (req : Nat) (ev : Event) : (s.dropFrame req ev).rx = s.rx := rfl
@[simp] theorem dropFrame_tx (req : Nat) (ev : Event) : (s.dropFrame req ev).tx = s.tx := rfl
@[simp] theorem dropFrame_events (req : Nat) (ev : Event) : (s.dropFrame req ev).events = s.events ++ [ev] := rfl
@[simp] theorem dropFrame_inputs (req : Nat) (ev : Event) : (s.dropFrame req ev).inputs = s.inputs := rfl
@[simp] theorem dropFrame_freeCount (req : Nat) (ev : Event) : (s.dropFrame req ev).freeCount = s.freeCount := rfl

/-! ### `arrive` -/

@[simp] theorem arrive_cfg (bs : List Byte) : (s.arrive bs).cfg = s.cfg := rfl
@[simp] theorem arrive_crc (bs : List Byte) : (s.arrive bs).crc = s.crc := rfl
@[simp] theorem arrive_st (bs : List Byte) : (s.arrive bs).st = s.st := rfl
@[simp] theorem arrive_phase (bs : List Byte) : (s.arrive bs).phase = s.phase := rfl
@[simp] theorem arrive_fb (bs : List Byte) : (s.arrive bs).fb = s.fb := rfl
@[simp] theorem arrive_fill (bs : List Byte) : (s.arrive bs).fill = s.fill := rfl
@[simp] theorem arrive_ftype (bs : List Byte) : (s.arrive bs).ftype = s.ftype := rfl
@[simp] theorem arrive_flen (bs : List Byte) : (s.arrive bs).flen = s.flen := rfl
@[simp] theorem arrive_result (bs : List Byte) : (s.arrive bs).result = s.result := rfl
@[simp] theorem arrive_err (bs : List Byte) : (s.arrive bs).err = s.err := rfl
@[simp] theorem arrive_event (bs : List Byte) : (s.arrive bs).event = s.event := rfl
@[simp] theorem arrive_rxReq (bs : List Byte) : (s.arrive bs).rxReq = s.rxReq := rfl
@[simp] theorem arrive_txCount (bs : List Byte) : (s.arrive bs).txCount = s.txCount := rfl
@[simp] theorem arrive_rx (bs : List Byte) : (s.arrive bs).rx = channelArrive s.rx bs := rfl
@[simp] theorem arrive_tx (bs : List Byte) : (s.arrive bs).tx = s.tx := rfl
@[simp] theorem arrive_events (bs : List Byte) : (s.arrive bs).events = s.events := rfl
@[simp] theorem arrive_inputs (bs : List Byte) : (s.arrive bs).inputs = s.inputs := rfl
@[simp] theorem arrive_freeCount (bs : List Byte) : (s.arrive bs).freeCount = s.freeCount := rfl

/-! ### `assertReset` -/

@[simp] theorem assertReset_cfg : (s.assertReset).cfg = s.cfg := rfl
@[simp] theorem assertReset_crc : (s.assertReset).crc = 0xFFFF#16 := rfl
@[simp] theorem assertReset_st : (s.assertReset).st = .seekMagic := rfl
@[simp] theorem assertReset_phase : (s.assertReset).phase = .ts := rfl
@[simp] theorem assertReset_fb : (s.assertReset).fb = [] := rfl
@[simp] theorem assertReset_fill : (s.assertReset).fill = 0#6 := rfl
@[simp] theorem assertReset_ftype : (s.assertReset).ftype = 0#8 := rfl
@[simp] theorem assertReset_flen : (s.assertReset).flen = 0#6 := rfl
@[simp] theorem assertReset_result : (s.assertReset).result = .noResult := rfl
@[simp] theorem assertReset_err : (s.assertReset).err = none := rfl
@[simp] theorem assertReset_event : (s.assertReset).event = none := rfl
@[simp] theorem assertReset_rxReq : (s.assertReset).rxReq = none := rfl
@[simp] theorem assertReset_txCount : (s.assertReset).txCount = s.txCount := rfl
@[simp] theorem assertReset_rx : (s.assertReset).rx = s.rx := rfl
@[simp] theorem assertReset_tx : (s.assertReset).tx = s.tx := rfl
@[simp] theorem assertReset_events : (s.assertReset).events = s.events := rfl
@[simp] theorem assertReset_inputs : (s.assertReset).inputs = s.inputs := rfl
@[simp] theorem assertReset_freeCount : (s.assertReset).freeCount = s.freeCount := rfl

/-! ### `withFetchWord` -/

@[simp] theorem withFetchWord_cfg (nbits w : Nat) : (s.withFetchWord nbits w).cfg = s.cfg := rfl
@[simp] theorem withFetchWord_crc (nbits w : Nat) : (s.withFetchWord nbits w).crc = s.crc := rfl
@[simp] theorem withFetchWord_st (nbits w : Nat) : (s.withFetchWord nbits w).st = s.st := rfl
@[simp] theorem withFetchWord_phase (nbits w : Nat) : (s.withFetchWord nbits w).phase = s.phase := rfl
@[simp] theorem withFetchWord_fb (nbits w : Nat) : (s.withFetchWord nbits w).fb = s.fb := rfl
@[simp] theorem withFetchWord_fill (nbits w : Nat) : (s.withFetchWord nbits w).fill = s.fill := rfl
@[simp] theorem withFetchWord_ftype (nbits w : Nat) : (s.withFetchWord nbits w).ftype = s.ftype := rfl
@[simp] theorem withFetchWord_flen (nbits w : Nat) : (s.withFetchWord nbits w).flen = s.flen := rfl
@[simp] theorem withFetchWord_result (nbits w : Nat) : (s.withFetchWord nbits w).result = s.result := rfl
@[simp] theorem withFetchWord_err (nbits w : Nat) : (s.withFetchWord nbits w).err = s.err := rfl
@[simp] theorem withFetchWord_event (nbits w : Nat) : (s.withFetchWord nbits w).event = s.event := rfl
@[simp] theorem withFetchWord_rxReq (nbits w : Nat) : (s.withFetchWord nbits w).rxReq = s.rxReq := rfl
@[simp] theorem withFetchWord_txCount (nbits w : Nat) : (s.withFetchWord nbits w).txCount = s.txCount := rfl
@[simp] theorem withFetchWord_rx (nbits w : Nat) : (s.withFetchWord nbits w).rx = s.rx := rfl
@[simp] theorem withFetchWord_tx (nbits w : Nat) : (s.withFetchWord nbits w).tx = s.tx := rfl
@[simp] theorem withFetchWord_events (nbits w : Nat) : (s.withFetchWord nbits w).events = s.events := rfl
@[simp] theorem withFetchWord_inputs (nbits w : Nat) : (s.withFetchWord nbits w).inputs = .present (tableWord s.cfg nbits w) :: s.inputs := rfl
@[simp] theorem withFetchWord_freeCount (nbits w : Nat) : (s.withFetchWord nbits w).freeCount = s.freeCount := rfl

/-! ### The kept parts -/

theorem SyncKept.refl : SyncKept s s := ⟨rfl, rfl, rfl, rfl, rfl, rfl⟩

theorem EnvKept.refl : EnvKept s s := ⟨rfl, rfl, rfl, rfl, rfl, rfl⟩

theorem complete_syncKept (r : Result) : SyncKept s (s.complete r) := ⟨rfl, rfl, rfl, rfl, rfl, rfl⟩

theorem complete_envKept (r : Result) : EnvKept s (s.complete r) := ⟨rfl, rfl, rfl, rfl, rfl, rfl⟩

theorem complete_completed (r : Result) : Completed (s.complete r) := ⟨rfl, rfl, rfl⟩

/-- Raising an error changes nothing of R20 (R213). -/
theorem raise_coreKept (e : OpError) : CoreKept s (s.raise e) := ⟨rfl, rfl, rfl, rfl, rfl, rfl, rfl⟩

theorem raise_envKept (e : OpError) : EnvKept s (s.raise e) := ⟨rfl, rfl, rfl, rfl, rfl, rfl⟩

theorem arrive_coreKept (bs : List Byte) : CoreKept s (s.arrive bs) := ⟨rfl, rfl, rfl, rfl, rfl, rfl, rfl⟩

end Sys2Proof.Machine
end

