-- ==== Sys2Proof/Laws/Ops.lean ====
section
/-!
SUPPORT. One lemma for each shared operation that says what it can do: storing into the frame buffer, the channel's read,
the transport's answer, a wire frame, serving the oldest input, and when a configuration is legal.
-/

namespace Sys2Proof.Machine

/-! ### The configuration -/

/-- A type that is registered is listed. -/
theorem mem_of_lookup {tt : TypeTable} {b : Byte} {l : Len} (h : tt.lookup b = some l) : ∃ e ∈ tt, e.1 = b := by
  induction tt with
  | nil => cases h
  | cons e tt ih =>
    by_cases hb : e.1 = b
    · exact ⟨e, List.mem_cons_self, hb⟩
    · obtain ⟨e', he', hk⟩ := ih (by simpa [TypeTable.lookup, hb] using h)
      exact ⟨e', List.mem_cons_of_mem _ he', hk⟩

/-- A configuration is legal exactly when every registered length is at most 48 (R30). -/
theorem legal_iff {cfg : Config} : cfg.legal = true ↔ ∀ b l, cfg.tt.lookup b = some l → l.toNat ≤ 48 := by
  unfold Config.legal TypeTable.legal
  rw [List.all_eq_true]
  constructor
  · intro h b l hl
    obtain ⟨e, he, rfl⟩ := mem_of_lookup hl
    have h := h e he
    simp only [TypeTable.legalAt, hl] at h
    exact of_decide_eq_true h
  · intro h e _
    unfold TypeTable.legalAt
    split
    · rfl
    · exact decide_eq_true (h _ _ ‹_›)

/-- A registered length under a legal table is at most 48 (R30). -/
theorem lookup_le_of_legal {cfg : Config} (hl : cfg.legal = true) {b : Byte} {l : Len}
    (h : cfg.tt.lookup b = some l) : l.toNat ≤ 48 := legal_iff.1 hl b l h

/-- Under a legal table an operation goes on. -/
@[simp] theorem whenLegal_legal {s : State} (o : Outcome) (h : s.cfg.legal = true) : whenLegal s o = o := by
  simp [whenLegal, h]

/-- An operation that reads the configuration completes only under a legal table (R30). -/
theorem whenLegal_next {s t : State} {o : Outcome} (h : whenLegal s o = .next t) : s.cfg.legal = true ∧ o = .next t := by
  unfold whenLegal at h
  split at h
  · exact ⟨‹_›, h⟩
  · cases h

theorem whenLegal_illegal {s : State} (o : Outcome) (h : s.cfg.legal ≠ true) :
    whenLegal s o = .refused .illegalConfig := if_neg h

/-- A wire frame under a legal table: its bytes arrive (R80, R50 (a)). -/
theorem execFrame_next {type : Byte} {ts : Timestamp} {payload : List Byte} {c0 c1 : Byte} {s t : State} :
    execFrame type ts payload c0 c1 s = .next t ↔
      s.cfg.legal = true ∧ t = s.arrive (frameBytes s.cfg ⟨type, ts, payload, c0, c1⟩) := by
  constructor
  · intro h
    obtain ⟨hl, h⟩ := whenLegal_next h
    exact ⟨hl, (Host.Outcome.next.inj h).symm⟩
  · rintro ⟨hl, rfl⟩
    exact whenLegal_legal _ hl

/-- A frame of type `0x00`, put on the wire as FRAME.IMAGE_CHUNK, is what FRAME puts there (R84). -/
theorem execFrameImageChunk_eq (ts : Timestamp) (payload : List Byte) (c0 c1 : Byte) (s : State) :
    execFrameImageChunk ts payload c0 c1 s = execFrame 0x00#8 ts payload c0 c1 s := rfl

/-- A wire frame does not fault. -/
theorem execFrame_ne_fault {type : Byte} {ts : Timestamp} {payload : List Byte} {c0 c1 : Byte} {s : State} {e : Fault} :
    execFrame type ts payload c0 c1 s ≠ .fault e := by
  unfold execFrame whenLegal
  split <;> nofun

/-! ### The frame buffer -/

/-- A store inside `fb[0]` to `fb[55]` succeeds (R24). -/
theorem storeFrame_ok {s : State} {a : Nat} {bs : List Byte} (h : a + bs.length ≤ frameMax) :
    s.storeFrame a bs = .ok ({ s with fb := s.fb.writeBytes a bs }.setFill (a + bs.length)) := by
  simp [State.storeFrame, h]

/-- All that a successful store does. -/
theorem storeFrame_cases {s t : State} {a : Nat} {bs : List Byte} (h : s.storeFrame a bs = .ok t) :
    a + bs.length ≤ frameMax ∧ t = { s with fb := s.fb.writeBytes a bs }.setFill (a + bs.length) := by
  unfold State.storeFrame at h
  split at h
  · exact ⟨‹_›, (Except.ok.inj h).symm⟩
  · cases h

/-- The bytes after a store: those stored, those below them as before, none above (R24). -/
theorem read_store (m : Memory) (a : Nat) (bs : List Byte) (x : Nat) :
    ((m.writeBytes a bs).below (a + bs.length)).read x =
      if x < a then m.read x else if x < a + bs.length then bs[x - a]? else none := by
  rw [Memory.read_below, Memory.read_writeBytes]
  by_cases h1 : x < a
  · rw [if_pos (by omega), if_neg (by omega), if_pos h1]
  · by_cases h2 : x < a + bs.length
    · rw [if_pos h2, if_pos ⟨by omega, h2⟩, if_neg h1, if_pos h2]
    · rw [if_neg h2, if_neg h1, if_neg h2]

/-- A store at the end of the filled part keeps the buffer filled from 0 (R24). -/
theorem keys_store {m : Memory} {a : Nat} (bs : List Byte) (h : m.map Prod.fst = List.range a) :
    ((m.writeBytes a bs).below (a + bs.length)).map Prod.fst = List.range (a + bs.length) := by
  rw [Memory.below_of_keys (Memory.keys_writeBytes_end bs h) (Nat.le_refl _)]
  exact Memory.keys_writeBytes_end bs h

/-- The 6-bit fill count holds every count up to 63 (R24). -/
theorem toNat_fill {n : Nat} (h : n < 64) : (BitVec.ofNat 6 n).toNat = n := by
  simp; omega

/-! ### The Transport Channel -/

/-- "returns a byte string `r` with `0 <= |r| <= n`" (R51). -/
theorem channelRead_length (rx : List (List Byte)) (n : Nat) : (channelRead rx n).1.length ≤ n := by
  cases rx with
  | nil => simp [channelRead]
  | cons seg rest => simp only [channelRead]; split <;> (simp; try omega)

/-- "The bytes returned are the next `|r|` bytes of RX in order, and they are removed from RX" (R51). -/
theorem channelRead_flatten (rx : List (List Byte)) (n : Nat) :
    rx.flatten = (channelRead rx n).1 ++ (channelRead rx n).2.flatten := by
  cases rx with
  | nil => simp [channelRead]
  | cons seg rest =>
    simp only [channelRead]
    split
    · simp only [List.flatten_cons, ← List.append_assoc, List.take_append_drop]
    · simp

/-- A full read from the first segment (R66). -/
theorem channelRead_full {r seg : List Byte} {rest : List (List Byte)} {n : Nat} (h : r.length = n) :
    channelRead ((r ++ seg) :: rest) n = (r, seg :: rest) := by
  subst h
  simp [channelRead]

/-- Bytes that arrive follow those already there. -/
theorem channelArrive_flatten (rx : List (List Byte)) (bs : List Byte) :
    (channelArrive rx bs).flatten = rx.flatten ++ bs := by
  induction rx with
  | nil => simp [channelArrive]
  | cons seg rest ih =>
    cases rest with
    | nil => simp [channelArrive]
    | cons seg' rest => simp only [channelArrive, List.flatten_cons, ih, List.append_assoc]

/-! ### The transport's answer and serving an input -/

/-- Only RX can change when the transport answers. -/
theorem answered_state (p : Presented) (s : State) : ∃ rx, (answered p s).2 = { s with rx := rx } := by
  unfold answered
  split
  · split
    · split
      · exact ⟨_, rfl⟩
      · exact ⟨s.rx, rfl⟩
    · exact ⟨s.rx, rfl⟩
  · exact ⟨s.rx, rfl⟩
  · exact ⟨s.rx, rfl⟩
  · exact ⟨s.rx, rfl⟩

/-- A presentation other than SYNC.STEP is not answered. -/
theorem answered_other {p : Presented} (s : State) (h : ∀ c, p = .op4 c → c.op ≠ 0x7#4) : answered p s = (p, s) := by
  unfold answered
  split
  · rename_i c
    rw [if_neg (h c rfl)]
  · rfl
  · rfl
  · rfl

/-- SYNC.STEP is answered by the channel where it issues a read. -/
theorem answered_syncStep {c : CommandPort} (s : State) (h : c.op = 0x7#4) :
    answered (.op4 c) s =
      match s.readSize with
      | some n => (.op4 { c with rx := (channelRead s.rx n).1 }, { s with rx := (channelRead s.rx n).2 })
      | none => (.op4 { c with rx := [] }, s) := by
  cases hr : s.readSize <;> simp [answered, h, hr]

/-- A step with no pending input changes nothing (R240, R222). -/
theorem step_idle {s : State} (h : s.inputs = []) : step s = .next s := by
  simp [step, cycle, h]

/-- A step serves the oldest pending input. -/
theorem step_serves {s : State} {i : Input} {rest : List Input} (h : s.inputs = i :: rest) :
    step s = serve i { s with inputs := rest } := by
  simp [step, cycle, h]

/-- One more step of a run. -/
theorem run_succ {s t : State} {n : Nat} (h : step s = .next t) :
    Host.Core.run Sys2Proof.core (n + 1) s = Host.Core.run Sys2Proof.core n t := by
  have h' : Sys2Proof.core.step s = .next t := h
  simp only [Host.Core.run]
  rw [h']

/-- What serving a presentation can do: execute what it decodes to, or let undecodable wire bytes arrive. -/
theorem issue_cases {p : Presented} {s t : State} (h : issue p s = .next t) :
    (∃ i, decode s.cfg (answered p s).1 = .ok i ∧ exec i (answered p s).2 = .next t) ∨
    (∃ bs, (p = .wire8 bs ∨ p = .wire16 bs) ∧ s.cfg.legal = true ∧ t = s.arrive bs) := by
  obtain ⟨rx, hrx⟩ := answered_state p s
  unfold issue at h
  have hc : (answered p s).2.cfg = s.cfg := by rw [hrx]
  rw [hc] at h
  split at h
  · exact .inl ⟨_, ‹_›, h⟩
  · right
    unfold undecodable at h
    split at h
    · cases h
    · obtain ⟨hl, h⟩ := whenLegal_next h
      exact ⟨_, .inl rfl, hl, (Host.Outcome.next.inj h).symm⟩
    · obtain ⟨hl, h⟩ := whenLegal_next h
      exact ⟨_, .inr rfl, hl, (Host.Outcome.next.inj h).symm⟩
    · cases h

end Sys2Proof.Machine
end

