-- ==== Sys2Proof/Laws/Sync.lean ====
section
/-!
SUPPORT. SYNC.STEP, state by state (spec/42_sync.md R153 to R159): the meaning reduced to the one definition its state
selects, everything a SYNC.STEP that answers a next state can have done, and the parts of the invariant it keeps.
-/

namespace Sys2Proof.Machine

variable {s t : State} {r : List Byte}

/-- A value gone on with. -/
@[simp] theorem orFault_ok {α : Type} (a : α) (k : α → Outcome) : orFault (.ok a) k = k a := rfl

theorem orFault_next {α : Type} {x : Except Fault α} {k : α → Outcome} (h : orFault x k = .next t) :
    ∃ a, x = .ok a ∧ k a = .next t := by
  cases x with
  | ok a => exact ⟨a, rfl, h⟩
  | error e => cases h

/-- What the dispatch of SYNC.STEP selects (R151). -/
def syncArm (r : List Byte) (s : State) : Outcome :=
  match s.st with
  | .seekMagic => syncSeekMagic r s
  | .readType => syncReadType r s
  | .readBody =>
    match s.phase with
    | .ts => syncReadTs r s
    | .pl => syncReadPl r s
    | .tr => syncReadTr r s
  | .emit => syncEmit s
  | .ended => syncEnded s

/-- SYNC.STEP under a legal table with a response the read admits. -/
theorem execSyncStep_eq (hl : s.cfg.legal = true) (hr : s.overrun r = false) : execSyncStep r s = syncArm r s := by
  simp only [execSyncStep, whenLegal_legal _ hl, hr]
  rfl

theorem execSyncStep_next (h : execSyncStep r s = .next t) :
    s.cfg.legal = true ∧ s.overrun r = false ∧ syncArm r s = .next t := by
  obtain ⟨hl, h⟩ := whenLegal_next h
  split at h
  · cases h
  · rename_i ho
    exact ⟨hl, by simpa using ho, h⟩

theorem overrun_eq_false {n : Nat} (h : s.readSize = some n) (hr : r.length ≤ n) : s.overrun r = false := by
  simp [State.overrun, h, hr]

theorem overrun_none (h : s.readSize = none) : s.overrun r = false := by
  simp [State.overrun, h]

theorem length_le_of_overrun {n : Nat} (h : s.overrun r = false) (hn : s.readSize = some n) : r.length ≤ n := by
  simpa [State.overrun, hn] using h

/-- A store that succeeded (R153 to R157). -/
abbrev State.stored (s : State) (a : Nat) (bs : List Byte) : State :=
  { s with fb := s.fb.writeBytes a bs }.setFill (a + bs.length)

/-- Everything SYNC.STEP can do with the response `r`, one case per row of the transition table (R162). -/
inductive SyncMove (s : State) : List Byte → State → Prop where
  | scanEnds (hst : s.st = .seekMagic) :
      SyncMove s [] ({ s with st := .ended }.produce (some 1) (some .ended) .noResult)
  | magicFound (b : Byte) (r : List Byte) (hst : s.st = .seekMagic) (hb : b = s.cfg.magic) :
      SyncMove s (b :: r) ({ s.stored 0 [b] with st := .readType }.produce (some 1) none .noResult)
  | garbage (b : Byte) (r : List Byte) (hst : s.st = .seekMagic) (hb : b ≠ s.cfg.magic) :
      SyncMove s (b :: r) (s.produce (some 1) none .noResult)
  | typeShort (hst : s.st = .readType) : SyncMove s [] (s.dropFrame 1 (.dropShort .type 0 1))
  | typeUnknown (b : Byte) (r : List Byte) (hst : s.st = .readType) (hb : s.cfg.tt.lookup b = none) :
      SyncMove s (b :: r) (s.dropFrame 1 (.reportUnknownType b))
  | typeKnown (b : Byte) (r : List Byte) (l : Len) (hst : s.st = .readType) (hb : s.cfg.tt.lookup b = some l) :
      SyncMove s (b :: r)
        ({ s.stored 1 [b] with ftype := b, flen := l, phase := .ts, st := .readBody }.produce (some 1) none .noResult)
  | tsShort (r : List Byte) (hst : s.st = .readBody) (hph : s.phase = .ts) (hr : r.length < 4) :
      SyncMove s r (s.dropFrame 4 (.dropShort .ts r.length 4))
  | tsRead (r : List Byte) (hst : s.st = .readBody) (hph : s.phase = .ts) (hr : 4 ≤ r.length)
      (hfit : 2 + r.length ≤ frameMax) :
      SyncMove s r
        ({ s.stored 2 r with phase := if s.flen = 0#6 then .tr else .pl }.produce (some 4) none .noResult)
  | plNone (r : List Byte) (hst : s.st = .readBody) (hph : s.phase = .pl) (hl : s.flen = 0#6) :
      SyncMove s r ({ s with phase := .tr }.produce none none .noResult)
  | plShort (r : List Byte) (hst : s.st = .readBody) (hph : s.phase = .pl) (hl : s.flen ≠ 0#6)
      (hr : r.length < s.flen.toNat) :
      SyncMove s r (s.dropFrame s.flen.toNat (.dropShort .pl r.length s.flen.toNat))
  | plRead (r : List Byte) (hst : s.st = .readBody) (hph : s.phase = .pl) (hl : s.flen ≠ 0#6)
      (hr : s.flen.toNat ≤ r.length) (hfit : 6 + r.length ≤ frameMax) :
      SyncMove s r ({ s.stored 6 r with phase := .tr }.produce (some s.flen.toNat) none .noResult)
  | trShort (r : List Byte) (hst : s.st = .readBody) (hph : s.phase = .tr) (hr : r.length < 2) :
      SyncMove s r (s.dropFrame 2 (.dropShort .tr r.length 2))
  | trRead (r : List Byte) (hst : s.st = .readBody) (hph : s.phase = .tr) (hr : 2 ≤ r.length)
      (hfit : 6 + s.flen.toNat + r.length ≤ frameMax) :
      SyncMove s r ({ s.stored (6 + s.flen.toNat) r with st := .emit }.produce (some 2) none .noResult)
  | emitted (r f : List Byte) (p : Packet) (hst : s.st = .emit) (hf : s.fb.readBytes 0 s.fill.toNat = some f)
      (hp : decodePacket s.cfg f = .ok p) :
      SyncMove s r (({ s with st := .seekMagic }.setFill 0).produce none (some (.emit p)) (.packet p))
  | atEnd (r : List Byte) (hst : s.st = .ended) : SyncMove s r (s.produce none none .noResult)

theorem frameInProgress_ok {f : List Byte} : s.frameInProgress = .ok f ↔ s.fb.readBytes 0 s.fill.toNat = some f := by
  unfold State.frameInProgress
  cases s.fb.readBytes 0 s.fill.toNat <;> simp

/-- The dispatched arm answers a next state exactly by one of the moves. -/
theorem syncArm_next : syncArm r s = .next t ↔ SyncMove s r t := by
  constructor
  · intro h
    unfold syncArm at h
    split at h
    · rename_i hst
      unfold syncSeekMagic at h
      split at h
      · cases h; exact .scanEnds hst
      · split at h
        · obtain ⟨a, ha, h⟩ := orFault_next h
          obtain ⟨-, rfl⟩ := storeFrame_cases ha
          cases h; exact .magicFound _ _ hst ‹_›
        · cases h; exact .garbage _ _ hst ‹_›
    · rename_i hst
      unfold syncReadType at h
      split at h
      · cases h; exact .typeShort hst
      · split at h
        · cases h; exact .typeUnknown _ _ hst ‹_›
        · obtain ⟨a, ha, h⟩ := orFault_next h
          obtain ⟨-, rfl⟩ := storeFrame_cases ha
          cases h; exact .typeKnown _ _ _ hst ‹_›
    · rename_i hst
      split at h
      · rename_i hph
        unfold syncReadTs at h
        split at h
        · cases h; exact .tsShort _ hst hph ‹_›
        · obtain ⟨a, ha, h⟩ := orFault_next h
          obtain ⟨hfit, rfl⟩ := storeFrame_cases ha
          cases h; exact .tsRead _ hst hph (Nat.not_lt.1 ‹_›) hfit
      · rename_i hph
        unfold syncReadPl at h
        split at h
        · cases h; exact .plNone _ hst hph ‹_›
        · split at h
          · cases h; exact .plShort _ hst hph ‹_› ‹_›
          · obtain ⟨a, ha, h⟩ := orFault_next h
            obtain ⟨hfit, rfl⟩ := storeFrame_cases ha
            cases h; exact .plRead _ hst hph ‹_› (by omega) hfit
      · rename_i hph
        unfold syncReadTr at h
        split at h
        · cases h; exact .trShort _ hst hph ‹_›
        · obtain ⟨a, ha, h⟩ := orFault_next h
          obtain ⟨hfit, rfl⟩ := storeFrame_cases ha
          cases h; exact .trRead _ hst hph (Nat.not_lt.1 ‹_›) hfit
    · rename_i hst
      obtain ⟨f, hf, h⟩ := orFault_next h
      split at h
      · cases h; exact .emitted _ f _ hst (frameInProgress_ok.1 hf) ‹_›
      · cases h
    · cases h; exact .atEnd _ ‹_›
  · intro h
    unfold syncArm
    cases h with
    | scanEnds hst => rw [hst]; rfl
    | magicFound b r hst hb =>
      rw [hst]
      simp only [syncSeekMagic, hb, if_true]
      rw [storeFrame_ok (by simp [frameMax])]; rfl
    | garbage b r hst hb => rw [hst]; simp only [syncSeekMagic, hb, if_false]
    | typeShort hst => rw [hst]; rfl
    | typeUnknown b r hst hb => rw [hst]; simp only [syncReadType, hb]
    | typeKnown b r l hst hb =>
      rw [hst]
      simp only [syncReadType, hb]
      rw [storeFrame_ok (by simp [frameMax])]; rfl
    | tsShort r hst hph hr => rw [hst, hph]; simp only [syncReadTs, hr, if_true]
    | tsRead r hst hph hr hfit =>
      rw [hst, hph]
      simp only [syncReadTs]
      rw [if_neg (Nat.not_lt.2 hr), storeFrame_ok hfit]; rfl
    | plNone r hst hph hl => rw [hst, hph]; simp only [syncReadPl]; rw [if_pos hl, hst]
    | plShort r hst hph hl hr => rw [hst, hph]; simp only [syncReadPl, hl, if_false, hr, if_true]
    | plRead r hst hph hl hr hfit =>
      rw [hst, hph]
      simp only [syncReadPl, hl, if_false]
      rw [if_neg (by omega), storeFrame_ok hfit]; rfl
    | trShort r hst hph hr => rw [hst, hph]; simp only [syncReadTr, hr, if_true]
    | trRead r hst hph hr hfit =>
      rw [hst, hph]
      simp only [syncReadTr]
      rw [if_neg (Nat.not_lt.2 hr), storeFrame_ok hfit]; rfl
    | emitted r f p hst hf hp =>
      rw [hst]
      simp only [syncEmit]
      rw [frameInProgress_ok.2 hf, orFault_ok, hp]
    | atEnd r hst => rw [hst]; rfl

/-- SYNC.STEP answers a next state exactly under a legal table, with a response its read admits, by one of the moves. -/
theorem execSyncStep_iff :
    execSyncStep r s = .next t ↔ s.cfg.legal = true ∧ s.overrun r = false ∧ SyncMove s r t := by
  constructor
  · intro h
    obtain ⟨hl, ho, h⟩ := execSyncStep_next h
    exact ⟨hl, ho, syncArm_next.1 h⟩
  · rintro ⟨hl, ho, h⟩
    rw [execSyncStep_eq hl ho]
    exact syncArm_next.2 h

/-- What no SYNC.STEP changes, and how the record of events grows (R151, R168). -/
theorem syncMove_kept (h : SyncMove s r t) :
    t.crc = s.crc ∧ t.cfg = s.cfg ∧ t.rx = s.rx ∧ t.tx = s.tx ∧ t.txCount = s.txCount ∧ t.inputs = s.inputs ∧
      t.err = none ∧ t.events = s.events ++ t.event.toList := by
  cases h <;> simp

/-- The next SYNC.STEP when it issues a read: the channel's answer, then the move it gives. -/
theorem issue_syncStep_read {rx' : List (List Byte)} {n : Nat} (hl : s.cfg.legal = true) (hn : s.readSize = some n)
    (hrx : channelRead s.rx n = (r, rx')) (h63 : n ≤ 63) (hm : SyncMove { s with rx := rx' } r t) :
    issue syncStepPort s = .next t := by
  unfold issue syncStepPort
  rw [answered_syncStep _ rfl]
  have hlen := channelRead_length s.rx n
  rw [hrx] at hlen
  have hd : ∀ q, decode s.cfg (.op4 { op := 0x7#4, rx := q }) =
      if q.length ≤ 63 then .ok (.syncStep q) else .error (.responseTooLong q.length) := fun _ => rfl
  simp only at hlen
  simp only [hn, hrx, hd]
  rw [if_pos (by omega)]
  exact execSyncStep_iff.2 ⟨hl, overrun_eq_false (s := { s with rx := rx' }) hn hlen, hm⟩

/-- The next SYNC.STEP when it issues no read. -/
theorem issue_syncStep_noRead (hl : s.cfg.legal = true) (hn : s.readSize = none) (hm : SyncMove s [] t) :
    issue syncStepPort s = .next t := by
  unfold issue syncStepPort
  rw [answered_syncStep _ rfl, hn]
  exact execSyncStep_iff.2 ⟨hl, overrun_none hn, hm⟩

/-! ### Parts of the invariant -/

/-- A store at index 2 or above keeps the header. -/
theorem headerRead_stored {a : Nat} {bs : List Byte} (ha : 2 ≤ a) (h : s.headerRead) : (s.stored a bs).headerRead := by
  refine ⟨?_, ?_, h.lengthOfType⟩
  · show ((s.fb.writeBytes a bs).below (a + bs.length)).read 0 = _
    rw [read_store, if_pos (by omega)]
    exact h.magicAt0
  · show ((s.fb.writeBytes a bs).below (a + bs.length)).read 1 = _
    rw [read_store, if_pos (by omega)]
    exact h.typeAt1

/-- A store at the fill count keeps the buffer filled. -/
theorem bufferFilled_stored {a : Nat} {bs : List Byte} (h : s.fb.map Prod.fst = List.range s.fill.toNat)
    (ha : s.fill.toNat = a) (hb : a + bs.length < 64) :
    (s.stored a bs).fb.map Prod.fst = List.range (s.stored a bs).fill.toNat := by
  subst ha
  show ((s.fb.writeBytes s.fill.toNat bs).below _).map Prod.fst = List.range (BitVec.ofNat 6 _).toNat
  rw [keys_store bs h, toNat_fill hb]

/-- Dropping the frame in progress keeps the invariant (R164). -/
theorem inv_dropFrame {req : Nat} {ev : Event} (h : s.Inv) : (s.dropFrame req ev).Inv :=
  ⟨h.cfgLegal, by simp, by simp [State.control]⟩

/-- The invariant speaks of the straps and the synchronizer's registers alone. -/
theorem inv_of_kept (h : s.Inv) (hk : SyncKept s t) (hc : t.cfg = s.cfg) : t.Inv := by
  obtain ⟨h1, h2, h3⟩ := h
  obtain ⟨a, b, c, d, e, f⟩ := hk
  refine ⟨by rw [hc]; exact h1, by rw [c, d]; exact h2, ?_⟩
  unfold State.control at h3 ⊢
  rw [a, b, c, d, f, hc]
  split at h3
  · exact h3
  · exact h3
  · exact ⟨⟨by rw [c, hc]; exact h3.1.1, by rw [c, e]; exact h3.1.2, by rw [hc, e, f]; exact h3.1.3⟩, h3.2⟩
  · exact ⟨⟨by rw [c, hc]; exact h3.1.1, by rw [c, e]; exact h3.1.2, by rw [hc, e, f]; exact h3.1.3⟩, h3.2⟩
  · exact h3

/-- The latched length while a frame's body is read or emitted (R25, R30). -/
theorem flen_le_of_inv (h : s.Inv) (hst : s.st = .readBody ∨ s.st = .emit) : s.flen.toNat ≤ 48 := by
  have hc := h.controlled
  unfold State.control at hc
  rcases hst with hst | hst <;> (rw [hst] at hc; exact lookup_le_of_legal h.cfgLegal hc.1.lengthOfType)

end Sys2Proof.Machine
end

