-- ==== Sys2Proof/Laws/Packet.lean ====
section
/-!
SUPPORT. The packet operations under a legal Type Table (spec/41_packet.md R130, R132), what a whole frame decodes to, and the
shape of an encoded frame (spec/30_encoding.md R80 to R82).
-/

namespace Sys2Proof.Machine

variable {s t : State}

/-- PKT.ENCODE under a legal table. -/
theorem execPktEncode_eq {type : Byte} {ts : Timestamp} {payload : List Byte} (hl : s.cfg.legal = true) :
    execPktEncode type ts payload s =
      match encodePacket s.cfg type ts payload with
      | .ok f => .next (s.complete (.frame f))
      | .error e => .next (s.raise e) :=
  whenLegal_legal _ hl

/-- PKT.DECODE under a legal table. -/
theorem execPktDecode_eq {f : List Byte} (hl : s.cfg.legal = true) :
    execPktDecode f s =
      match decodePacket s.cfg f with
      | .ok p => .next (s.complete (.packet p))
      | .error e => .next (s.raise e) :=
  whenLegal_legal _ hl

theorem execPktEncode_next {type : Byte} {ts : Timestamp} {payload : List Byte}
    (h : execPktEncode type ts payload s = .next t) :
    s.cfg.legal = true ∧
      ((∃ f, encodePacket s.cfg type ts payload = .ok f ∧ t = s.complete (.frame f)) ∨
        ∃ e, encodePacket s.cfg type ts payload = .error e ∧ t = s.raise e) := by
  obtain ⟨hl, h⟩ := whenLegal_next h
  refine ⟨hl, ?_⟩
  split at h
  · exact .inl ⟨_, ‹_›, (Host.Outcome.next.inj h).symm⟩
  · exact .inr ⟨_, ‹_›, (Host.Outcome.next.inj h).symm⟩

theorem execPktDecode_next {f : List Byte} (h : execPktDecode f s = .next t) :
    s.cfg.legal = true ∧
      ((∃ p, decodePacket s.cfg f = .ok p ∧ t = s.complete (.packet p)) ∨
        ∃ e, decodePacket s.cfg f = .error e ∧ t = s.raise e) := by
  obtain ⟨hl, h⟩ := whenLegal_next h
  refine ⟨hl, ?_⟩
  split at h
  · exact .inl ⟨_, ‹_›, (Host.Outcome.next.inj h).symm⟩
  · exact .inr ⟨_, ‹_›, (Host.Outcome.next.inj h).symm⟩

/-- The trailer check, byte for byte (R116). -/
theorem verify_iff (b : List Byte) (t0 t1 : Byte) :
    verify b t0 t1 = true ↔ t0 = (crc16 b).extractLsb' 8 8 ∧ t1 = (crc16 b).extractLsb' 0 8 := by
  simp only [verify, be16, decide_eq_true_eq, List.cons.injEq, and_true]
  exact ⟨fun h => ⟨h.1.symm, h.2.symm⟩, fun h => ⟨h.1.symm, h.2.symm⟩⟩

theorem payloadMatches_iff (cfg : Config) (type : Byte) (payload : List Byte) :
    payloadMatches cfg type payload = true ↔ (cfg.tt.lookup type).map BitVec.toNat = some payload.length := by
  unfold payloadMatches
  cases cfg.tt.lookup type <;> simp

/-- A frame PKT.ENCODE returns has a payload of the registered length (R130). -/
theorem encodePacket_ok {cfg : Config} {type : Byte} {ts : Timestamp} {payload f : List Byte} :
    encodePacket cfg type ts payload = .ok f ↔
      (cfg.tt.lookup type).map BitVec.toNat = some payload.length ∧ f = encodedFrame cfg type ts payload := by
  unfold encodePacket
  rw [← payloadMatches_iff]
  by_cases h : payloadMatches cfg type payload = true
  · rw [if_pos h]
    constructor
    · intro e
      exact ⟨h, (Except.ok.inj e).symm⟩
    · intro e
      rw [e.2]
  · rw [if_neg h]
    constructor
    · intro e
      cases e
    · intro e
      exact absurd e.1 h

theorem coveredBytes_length (magic type : Byte) (ts : Timestamp) (payload : List Byte) :
    (coveredBytes magic type ts payload).length = 6 + payload.length := by
  simp [coveredBytes]; omega

theorem encodedFrame_length (cfg : Config) (type : Byte) (ts : Timestamp) (payload : List Byte) :
    (encodedFrame cfg type ts payload).length = 8 + payload.length := by
  simp [encodedFrame, coveredBytes_length]; omega

/-- An encoded frame is the wire frame whose trailer is the checksum, most significant byte first (R80). -/
theorem encodedFrame_eq (cfg : Config) (type : Byte) (ts : Timestamp) (payload : List Byte) :
    encodedFrame cfg type ts payload =
      frameBytes cfg ⟨type, ts, payload, (crc16 (coveredBytes cfg.magic type ts payload)).extractLsb' 8 8,
        (crc16 (coveredBytes cfg.magic type ts payload)).extractLsb' 0 8⟩ := by
  simp [encodedFrame, frameBytes, coveredBytes, be16]

/-- The bytes before the trailer are the covered bytes (R117). -/
theorem slice_frameBytes (cfg : Config) (ff : FrameFields) :
    slice (frameBytes cfg ff) 0 (6 + ff.payload.length) = coveredBytes cfg.magic ff.type ff.ts ff.payload := by
  simp only [slice, List.drop_zero, Nat.sub_zero]
  rw [← coveredBytes_length cfg.magic ff.type ff.ts ff.payload]
  exact List.take_left

/-- What a whole frame of a registered type decodes to. -/
theorem decodePacket_frameBytes {cfg : Config} {ff : FrameFields}
    (h : (cfg.tt.lookup ff.type).map BitVec.toNat = some ff.payload.length) :
    decodePacket cfg (frameBytes cfg ff) =
      .ok ⟨ff.type, ff.ts, ff.payload, verify (coveredBytes cfg.magic ff.type ff.ts ff.payload) ff.c0 ff.c1⟩ := by
  cases hl : cfg.tt.lookup ff.type with
  | none => simp [hl] at h
  | some l =>
    simp [hl] at h
    unfold decodePacket
    rw [parseFrame_frameBytes hl h]
    simp only [packetOf, slice_frameBytes]

end Sys2Proof.Machine
end

