-- ==== Sys2Proof/Laws/PerInstr.lean ====
section
/-!
SUPPORT. The family TableCode: every instruction is presented in the format of its row of spec/opcode_table.json, with the
row's fixed bits (spec/30_encoding.md R80, R84, R89, R93).
-/

namespace Sys2Proof.Laws.TableCode

/-- The code on `op[3:0]` of an OP4 row (R93, R94); none for a data format. -/
def code : Instr → Option (BitVec 4)
  | .crcInit => some 0x0#4
  | .crcUpdate _ => some 0x1#4
  | .crcCompute _ => some 0x2#4
  | .crcVerify _ _ _ => some 0x3#4
  | .pktEncode _ _ _ => some 0x4#4
  | .pktDecode _ => some 0x5#4
  | .syncStart => some 0x6#4
  | .syncStep _ => some 0x7#4
  | .c565Enc _ _ _ => some 0x8#4
  | .c565Dec _ _ => some 0x9#4
  | .pixPack _ => some 0xA#4
  | .pixUnpack _ => some 0xB#4
  | .reservedC => some 0xC#4
  | .reservedD => some 0xD#4
  | .reservedE => some 0xE#4
  | .reservedF => some 0xF#4
  | .frame _ _ _ _ _ => none
  | .frameImageChunk _ _ _ _ => none
  | .pixel565 _ _ _ => none

/-- The row's format and fixed bits: the operation-select code; the magic byte first, and `0x00` second for the registered
type, on the wire; a colour word that holds the three fields. -/
def Statement (i : Instr) : Prop :=
  ∀ cfg : Config,
    match encode cfg i with
    | .op4 p => code i = some p.op
    | .wire8 f => code i = none ∧ f.head? = some cfg.magic
    | .wire16 f => code i = none ∧ f.take 2 = [cfg.magic, 0x00#8]
    | .pix16 w => code i = none ∧ i = .pixel565 (field5R w) (field6G w) (field5B w)

theorem crcInit : Statement .crcInit := fun _ => rfl
theorem crcUpdate (b : Byte) : Statement (.crcUpdate b) := fun _ => rfl
theorem crcCompute (s : List Byte) : Statement (.crcCompute s) := fun _ => rfl
theorem crcVerify (s : List Byte) (t0 : Byte) (t1 : Byte) : Statement (.crcVerify s t0 t1) := fun _ => rfl
theorem pktEncode (type : Byte) (ts : Timestamp) (payload : List Byte) : Statement (.pktEncode type ts payload) := fun _ => rfl
theorem pktDecode (f : List Byte) : Statement (.pktDecode f) := fun _ => rfl
theorem syncStart : Statement .syncStart := fun _ => rfl
theorem syncStep (rx : List Byte) : Statement (.syncStep rx) := fun _ => rfl
theorem c565Enc (r : Byte) (g : Byte) (b : Byte) : Statement (.c565Enc r g b) := fun _ => rfl
theorem c565Dec (p0 : Byte) (p1 : Byte) : Statement (.c565Dec p0 p1) := fun _ => rfl
theorem pixPack (px : List Color) : Statement (.pixPack px) := fun _ => rfl
theorem pixUnpack (bs : List Byte) : Statement (.pixUnpack bs) := fun _ => rfl
theorem reservedC : Statement .reservedC := fun _ => rfl
theorem reservedD : Statement .reservedD := fun _ => rfl
theorem reservedE : Statement .reservedE := fun _ => rfl
theorem reservedF : Statement .reservedF := fun _ => rfl
theorem frame (type : Byte) (ts : Timestamp) (payload : List Byte) (c0 c1 : Byte) :
    Statement (.frame type ts payload c0 c1) := fun _ => ⟨rfl, rfl⟩
theorem frameImageChunk (ts : Timestamp) (payload : List Byte) (c0 c1 : Byte) :
    Statement (.frameImageChunk ts payload c0 c1) := fun _ => ⟨rfl, rfl⟩
theorem pixel565 (r5 : BitVec 5) (g6 : BitVec 6) (b5 : BitVec 5) : Statement (.pixel565 r5 g6 b5) := fun _ =>
  ⟨rfl, by rw [field5R_pack565, field6G_pack565, field5B_pack565]⟩

end Sys2Proof.Laws.TableCode
end

