-- ==== Sys2Proof/Tests/Slice0.lean ====
section
/-!
SUPPORT. Tests. Expected values are those of spec/95_test_vectors.md (the vector is named) or written out from the encoding
tables of spec/30_encoding.md. Then, for every statement with hypotheses, a witness that meets them.
-/

namespace Sys2Proof.Tests

open Sys2Proof Sys2Proof.Machine

/-! ### Small states -/

/-- The configuration of the vectors: `MAGIC = 0x14`, `TT = {0x00 -> 4}`. -/
def cfg4 : Config := { magic := 0x14#8, tt := [(0x00#8, 4#6)] }

/-- `TT = {0x00 -> 4, 0x01 -> 0}` (V-PKT-2). -/
def cfg40 : Config := { magic := 0x14#8, tt := [(0x00#8, 4#6), (0x01#8, 0#6)] }

/-- `TT = {0x00 -> 1}`: the shortest payload that is read. -/
def cfg1 : Config := { magic := 0x14#8, tt := [(0x00#8, 1#6)] }

/-- `TT = {0x00 -> 4, 0x05 -> 49}`, which R30 calls illegal. -/
def cfg49 : Config := { magic := 0x14#8, tt := [(0x00#8, 4#6), (0x05#8, 49#6)] }

def ts0 : Timestamp := ⟨0x00#8, 0x00#8, 0x00#8, 0x00#8⟩

/-- `DE AD BE EF`. -/
def dead : List Byte := [0xDE#8, 0xAD#8, 0xBE#8, 0xEF#8]

/-- The covered bytes of the example frame (V-SRC-1). -/
def covered : List Byte := [0x14#8, 0x00#8, 0x00#8, 0x00#8, 0x00#8, 0x00#8] ++ dead

/-- The example frame `F`. -/
def frameF : List Byte := covered ++ [0x1C#8, 0xCD#8]

/-- The state after reset under the vectors' configuration. -/
def start : State := { State.reset with cfg := cfg4 }

/-- A state of the synchronizer with `n` bytes of `F` in its buffer. -/
def filled (st : SyncState) (ph : Phase) (n : Nat) : State :=
  { start with
    st := st, phase := ph, fill := BitVec.ofNat 6 n, ftype := 0x00#8, flen := 4#6
    fb := (List.range n).map (fun i => (i, byteAt frameF i)) }

def inType : State := filled .readType .ts 1
def inTs : State := filled .readBody .ts 2
def inPl : State := filled .readBody .pl 6
def inTr : State := filled .readBody .tr 10
def inEmit : State := filled .emit .tr 12
def atEnd : State := filled .ended .ts 0

/-- The state an operation answers, if it answers one. -/
def after (o : Outcome) : Option State :=
  match o with
  | .next t => some t
  | .fault _ => none
  | .refused _ => none

/-- What a test looks at in the state an operation answers. -/
def look {α : Type} (o : Outcome) (f : State → α) : Option α := (after o).map f

/-! ### Well-formedness: one ill-formed term for each check -/

theorem test_wf_pktEncode_payload : (Instr.pktEncode 0x00#8 ts0 (List.replicate 64 0x00#8)).wf cfg4 = false := by decide
theorem test_wf_pktDecode_frame : (Instr.pktDecode (List.replicate 64 0x00#8)).wf cfg4 = false := by decide
theorem test_wf_syncStep_response : (Instr.syncStep (List.replicate 64 0x00#8)).wf cfg4 = false := by decide
theorem test_wf_pixPack_samples : (Instr.pixPack (List.replicate 25 ⟨0x00#8, 0x00#8, 0x00#8⟩)).wf cfg4 = false := by decide
theorem test_wf_pixUnpack_bytes : (Instr.pixUnpack (List.replicate 49 0x00#8)).wf cfg4 = false := by decide
theorem test_wf_frame_length : (Instr.frame 0x00#8 ts0 [0x00#8] 0x00#8 0x00#8).wf cfg4 = false := by decide
theorem test_wf_frame_type : (Instr.frame 0x07#8 ts0 [] 0x00#8 0x00#8).wf cfg4 = false := by decide
theorem test_wf_frameImageChunk_length : (Instr.frameImageChunk ts0 dead 0x00#8 0x00#8).wf Config.hardware = false := by
  decide

/-! ### Decoding: a word written out from the encoding of every row (R80, R84, R89, R93) -/

theorem test_decode_crcInit : decode cfg4 (.op4 { op := 0b0000#4 }) = .ok .crcInit := rfl
theorem test_decode_crcUpdate : decode cfg4 (.op4 { op := 0b0001#4, byte := 0xA5#8 }) = .ok (.crcUpdate 0xA5#8) := rfl
theorem test_decode_crcCompute : decode cfg4 (.op4 { op := 0b0010#4, str := dead }) = .ok (.crcCompute dead) := rfl
theorem test_decode_crcVerify :
    decode cfg4 (.op4 { op := 0b0011#4, str := covered, t0 := 0x1C#8, t1 := 0xCD#8 }) =
      .ok (.crcVerify covered 0x1C#8 0xCD#8) := rfl
theorem test_decode_pktEncode :
    decode cfg4 (.op4 { op := 0b0100#4, type := 0x07#8, ts := ⟨1#8, 2#8, 3#8, 4#8⟩, payload := dead }) =
      .ok (.pktEncode 0x07#8 ⟨1#8, 2#8, 3#8, 4#8⟩ dead) := rfl
theorem test_decode_pktDecode : decode cfg4 (.op4 { op := 0b0101#4, frame := frameF }) = .ok (.pktDecode frameF) := rfl
theorem test_decode_syncStart : decode cfg4 (.op4 { op := 0b0110#4 }) = .ok .syncStart := rfl
theorem test_decode_syncStep : decode cfg4 (.op4 { op := 0b0111#4, rx := dead }) = .ok (.syncStep dead) := rfl
theorem test_decode_c565Enc :
    decode cfg4 (.op4 { op := 0b1000#4, r := 0x12#8, g := 0x34#8, b := 0x56#8 }) =
      .ok (.c565Enc 0x12#8 0x34#8 0x56#8) := rfl
theorem test_decode_c565Dec :
    decode cfg4 (.op4 { op := 0b1001#4, p0 := 0x11#8, p1 := 0xAA#8 }) = .ok (.c565Dec 0x11#8 0xAA#8) := rfl
theorem test_decode_pixPack :
    decode cfg4 (.op4 { op := 0b1010#4, pixels := [⟨255#8, 0#8, 0#8⟩] }) = .ok (.pixPack [⟨255#8, 0#8, 0#8⟩]) := rfl
theorem test_decode_pixUnpack :
    decode cfg4 (.op4 { op := 0b1011#4, pixelBytes := [0xF8#8, 0x00#8] }) = .ok (.pixUnpack [0xF8#8, 0x00#8]) := rfl
theorem test_decode_reservedC : decode cfg4 (.op4 { op := 0b1100#4 }) = .ok .reservedC := rfl
theorem test_decode_reservedD : decode cfg4 (.op4 { op := 0b1101#4 }) = .ok .reservedD := rfl
theorem test_decode_reservedE : decode cfg4 (.op4 { op := 0b1110#4 }) = .ok .reservedE := rfl
theorem test_decode_reservedF : decode cfg4 (.op4 { op := 0b1111#4 }) = .ok .reservedF := rfl
theorem test_decode_frame :
    decode cfg40 (.wire8 [0x14#8, 0x01#8, 0x01#8, 0x02#8, 0x03#8, 0x04#8, 0xB5#8, 0x67#8]) =
      .ok (.frame 0x01#8 ⟨1#8, 2#8, 3#8, 4#8⟩ [] 0xB5#8 0x67#8) := rfl
theorem test_decode_frameImageChunk :
    decode cfg4 (.wire16 frameF) = .ok (.frameImageChunk ts0 dead 0x1C#8 0xCD#8) := rfl
theorem test_decode_pixel565 :
    decode cfg4 (.pix16 0b0001000110101010#16) = .ok (.pixel565 0b00010#5 0b001101#6 0b01010#5) := rfl

/-- What is no frame is rejected by name, in the order of R212. -/
theorem test_decode_rejects :
    decode cfg4 (.wire8 [0x14#8]) = .error (.notAFrame (.badLength 1)) ∧
      decode cfg4 (.wire8 [0x15#8, 0x07#8]) = .error (.notAFrame (.badMagic 0x15#8)) ∧
      decode cfg4 (.wire8 [0x14#8, 0x07#8]) = .error (.notAFrame (.unknownType 0x07#8)) ∧
      decode cfg4 (.wire16 (frameF ++ [0x00#8])) = .error (.notAFrame (.badLength 13)) := ⟨rfl, rfl, rfl, rfl⟩

/-- The words of spec/opcode_table.json, operand ports zero. -/
theorem test_table_words :
    (List.range 16).map (decodeTableWord 8) =
      [some .crcInit, some (.crcUpdate 0x00#8), some (.crcCompute []), some (.crcVerify [] 0x00#8 0x00#8),
        some (.pktEncode 0x00#8 ts0 []), some (.pktDecode []), some .syncStart, some (.syncStep []),
        some (.c565Enc 0x00#8 0x00#8 0x00#8), some (.c565Dec 0x00#8 0x00#8), some (.pixPack []), some (.pixUnpack []),
        some .reservedC, some .reservedD, some .reservedE, some .reservedF] ∧
      decodeTableWord 8 0x14 = some (.frame 0x00#8 ts0 (List.replicate 48 0x00#8) 0x00#8 0x00#8) ∧
      decodeTableWord 16 0x1400 = some (.frameImageChunk ts0 (List.replicate 48 0x00#8) 0x00#8 0x00#8) ∧
      decodeTableWord 16 0xF81F = some (.pixel565 31#5 0#6 31#5) := by
  decide +kernel

/-- Placed as the next instruction after reset, each runs as the very next step. -/
theorem test_table_words_run :
    step (State.reset.withFetchWord 8 0x1) = exec (.crcUpdate 0x00#8) State.reset ∧
      step (State.reset.withFetchWord 8 0x7) = exec (.syncStep []) State.reset ∧
      step (State.reset.withFetchWord 8 0xC) = exec .reservedC State.reset ∧
      step (State.reset.withFetchWord 8 0x14) =
        exec (.frame 0x00#8 ts0 (List.replicate 48 0x00#8) 0x00#8 0x00#8) State.reset ∧
      step (State.reset.withFetchWord 16 0x1400) =
        exec (.frameImageChunk ts0 (List.replicate 48 0x00#8) 0x00#8 0x00#8) State.reset ∧
      step (State.reset.withFetchWord 16 0xF81F) = exec (.pixel565 31#5 0#6 31#5) State.reset :=
  ⟨rfl, rfl, rfl, rfl, rfl, rfl⟩

/-! ### One step of each instruction -/

/-- V-OP-1: from `crc = 0x1234`. -/
theorem test_crcInit : look (exec .crcInit { start with crc := 0x1234#16 }) State.crc = some 0xFFFF#16 := by decide

/-- V-CRC-6 and V-SRC-1's second column. -/
theorem test_crcUpdate :
    look (exec (.crcUpdate 0x14#8) start) State.crc = some 0xB345#16 ∧
      look (exec (.crcUpdate 0x00#8) { start with crc := 0xB345#16 }) State.crc = some 0xD2B8#16 := by decide +kernel

/-- V-CRC-3: `crc16(31 32 .. 39)`. -/
theorem test_crcCompute :
    look (exec (.crcCompute [0x31#8, 0x32#8, 0x33#8, 0x34#8, 0x35#8, 0x36#8, 0x37#8, 0x38#8, 0x39#8]) start)
      (fun t => (t.crc, t.result)) = some (0x29B1#16, .half 0x29B1#16) := by decide +kernel

/-- V-CRC-8. -/
theorem test_crcVerify :
    look (exec (.crcVerify covered 0x1C#8 0xCD#8) start) State.result = some (.bit true) ∧
      look (exec (.crcVerify covered 0xCD#8 0x1C#8) start) State.result = some (.bit false) := by decide +kernel

/-- V-PKT-9: magic values inside are not escaped. -/
theorem test_pktEncode :
    look (exec (.pktEncode 0x00#8 ⟨0x14#8, 0x14#8, 0x14#8, 0x14#8⟩ [0x14#8, 0x00#8, 0x14#8, 0x00#8]) start) State.result =
      some (.frame [0x14#8, 0x00#8, 0x14#8, 0x14#8, 0x14#8, 0x14#8, 0x14#8, 0x00#8, 0x14#8, 0x00#8, 0x93#8, 0x66#8]) := by
  decide +kernel

/-- V-PKT-5, V-PKT-6. -/
theorem test_pktEncode_malformed :
    look (exec (.pktEncode 0x00#8 ts0 [0xDE#8, 0xAD#8, 0xBE#8]) start) State.err = some (some (.malformedPayload 0x00#8 3)) ∧
      look (exec (.pktEncode 0x07#8 ts0 dead) start) State.err = some (some (.malformedPayload 0x07#8 4)) := by decide

/-- V-PKT-11: a flipped payload bit. -/
theorem test_pktDecode :
    look (exec (.pktDecode (frameF.set 7 0xBD#8)) start) (fun t => (t.result, t.err)) =
      some (.packet ⟨0x00#8, ts0, [0xDE#8, 0xBD#8, 0xBE#8, 0xEF#8], false⟩, none) := by decide +kernel

/-- V-PKT-15 to V-PKT-17: the errors and their order. -/
theorem test_pktDecode_errors :
    look (exec (.pktDecode (frameF.take 11)) start) State.err = some (some (.badLength 11)) ∧
      look (exec (.pktDecode [0x15#8, 0x07#8]) start) State.err = some (some (.badMagic 0x15#8)) ∧
      look (exec (.pktDecode [0x14#8, 0x07#8]) start) State.err = some (some (.unknownType 0x07#8)) := by decide

/-- V-SYNC-21: in the middle of a frame. -/
theorem test_syncStart :
    look (exec .syncStart inPl) (fun t => (t.st, t.phase, t.fill, t.event)) = some (.seekMagic, .ts, 0#6, none) ∧
      look (exec .syncStart inPl) State.fb = some [] := by decide

/-- V-SYNC-6, V-SYNC-7: the type byte. -/
theorem test_syncStep_type :
    look (exec (.syncStep [0x14#8]) inType) (fun t => (t.st, t.fill, t.event)) =
        some (.seekMagic, 0#6, some (.reportUnknownType 0x14#8)) ∧
      look (exec (.syncStep [0x00#8]) inType) (fun t => (t.st, t.phase, t.ftype, t.flen, t.fill)) =
        some (.readBody, .ts, 0x00#8, 4#6, 2#6) := by decide

/-- V-SYNC-17: EMIT of `F`. -/
theorem test_syncStep_emit :
    look (exec (.syncStep []) inEmit) (fun t => (t.st, t.fill, t.event)) =
      some (.seekMagic, 0#6, some (.emit ⟨0x00#8, ts0, dead, true⟩)) := by decide +kernel

/-- V-COL-10. -/
theorem test_c565Enc : look (exec (.c565Enc 200#8 100#8 50#8) start) State.result = some (.bytes [0xCB#8, 0x26#8]) := by
  decide

/-- V-COL-14. -/
theorem test_c565Dec : look (exec (.c565Dec 0xAB#8 0xCD#8) start) State.result = some (.color ⟨173#8, 121#8, 107#8⟩) := by
  decide

/-- V-COL-15, its first two pixels. -/
theorem test_pixPack :
    look (exec (.pixPack [⟨0#8, 5#8, 255#8⟩, ⟨10#8, 25#8, 246#8⟩]) start) State.result =
      some (.bytes [0x00#8, 0x3F#8, 0x08#8, 0xDE#8]) := by decide

/-- V-COL-16. -/
theorem test_pixUnpack :
    look (exec (.pixUnpack [0xF8#8, 0x00#8, 0x07#8, 0xE0#8, 0x00#8, 0x1F#8]) start) State.result =
        some (.colors [⟨255#8, 0#8, 0#8⟩, ⟨0#8, 255#8, 0#8⟩, ⟨0#8, 0#8, 255#8⟩]) ∧
      look (exec (.pixUnpack [0xF8#8, 0x00#8, 0x07#8]) start) State.err = some (some (.badLength 3)) := by decide

/-- V-OP-1: each reserved code. -/
theorem test_reserved :
    look (exec .reservedC start) (fun t => (t.err, t.crc)) = some (some (.illegalOp 0xC#4), 0xFFFF#16) ∧
      look (exec .reservedD start) State.err = some (some (.illegalOp 0xD#4)) ∧
      look (exec .reservedE start) State.err = some (some (.illegalOp 0xE#4)) ∧
      look (exec .reservedF start) State.err = some (some (.illegalOp 0xF#4)) := by decide

/-- V-PKT-2's frame, presented on the wire after one byte already there (R80). -/
theorem test_frame :
    look (exec (.frame 0x01#8 ⟨1#8, 2#8, 3#8, 4#8⟩ [] 0xB5#8 0x67#8) { start with rx := [[0xFF#8]] }) State.rx =
      some [[0xFF#8, 0x14#8, 0x01#8, 0x01#8, 0x02#8, 0x03#8, 0x04#8, 0xB5#8, 0x67#8]] := by decide

theorem test_frameImageChunk :
    look (exec (.frameImageChunk ts0 dead 0x1C#8 0xCD#8) start) State.rx = some [frameF] := by decide

/-- V-COL-9's word `0x11AA`, from its fields `2`, `13`, `10`. -/
theorem test_pixel565 : look (exec (.pixel565 2#5 13#6 10#5) start) State.result = some (.bytes [0x11#8, 0xAA#8]) := by
  decide

/-! ### The inputs of a step -/

/-- R66: three bytes wanted of a two-byte segment, a timeout, then the next segment. -/
theorem test_channel :
    channelRead [[0x01#8, 0x02#8], [0x03#8]] 3 = ([0x01#8, 0x02#8], [[0x03#8]]) ∧
      channelRead [[0x01#8, 0x02#8], [0x03#8]] 1 = ([0x01#8], [[0x02#8], [0x03#8]]) ∧
      channelRead [] 4 = ([], []) := by decide

/-- A write is refused in the middle of a frame and of bytes that are no encoded frame (R62, R54). -/
theorem test_send_refused :
    step { inPl with inputs := [.send frameF 12] } = .refused .sendDuringScan ∧
      step { start with inputs := [.send [0x14#8] 1] } = .refused .notAnEncodedFrame := ⟨rfl, rfl⟩

/-! ### The invariant holds in a state of every kind -/

theorem inv_start : start.Inv := ⟨by decide, by decide, rfl⟩
theorem inv_type : inType.Inv := ⟨by decide, by decide, ⟨rfl, rfl⟩⟩
theorem inv_ts : inTs.Inv := ⟨by decide, by decide, ⟨⟨rfl, rfl, rfl⟩, rfl⟩⟩
theorem inv_pl : inPl.Inv := ⟨by decide, by decide, ⟨⟨rfl, rfl, rfl⟩, rfl, by decide⟩⟩
theorem inv_tr : inTr.Inv := ⟨by decide, by decide, ⟨⟨rfl, rfl, rfl⟩, rfl⟩⟩
theorem inv_emit : inEmit.Inv := ⟨by decide, by decide, ⟨⟨rfl, rfl, rfl⟩, rfl⟩⟩
theorem inv_end : atEnd.Inv := ⟨by decide, by decide, rfl⟩

/-! ### Witnesses: the hypotheses of each statement can be met -/

theorem witness_CrcUpdateStepsRegisterByByte : State.reset.crc = 0xFFFF#16 := rfl

theorem witness_CrcComputeFoldsByteSteps :
    (∃ t, exec (.pktEncode 0x00#8 ts0 dead) start = .next t) ∧ (∃ t, exec (.pktDecode frameF) start = .next t) ∧
      ∃ t, exec (.syncStep []) start = .next t := ⟨⟨_, rfl⟩, ⟨_, rfl⟩, ⟨_, rfl⟩⟩

theorem witness_CrcVerifyComparesBigEndianTrailer : verify [] 0xFF#8 0xFF#8 = true := by decide

/-- First and last bit of the first and last byte. -/
theorem witness_SingleBitFlipIsDetected : (0 < covered.length ∧ 0 < 8) ∧ 9 < covered.length ∧ 7 < 8 := by decide

theorem witness_CrcStreamEqualsCompute :
    ({ start with
        inputs := [.present (encode cfg4 .crcInit), .present (encode cfg4 (.crcUpdate 0x14#8)), .reset] } : State).inputs =
      .present (encode start.cfg .crcInit) ::
        ([0x14#8].map fun b => Input.present (encode start.cfg (.crcUpdate b))) ++ [.reset] := rfl

theorem witness_CrcRegisterBelongsToCrcEngine :
    (∀ (str : List Byte) (t0 t1 b : Byte), Instr.syncStart ≠ .crcInit ∧ Instr.syncStart ≠ .crcUpdate b ∧
      Instr.syncStart ≠ .crcCompute str ∧ Instr.syncStart ≠ .crcVerify str t0 t1) ∧
      ∃ t, exec .syncStart inPl = .next t :=
  ⟨fun _ _ _ _ => ⟨nofun, nofun, nofun, nofun⟩, ⟨_, rfl⟩⟩

/-- The longest payload a port presents; a matching length 4, 0 and 48; a length that does not match, a type not listed. -/
theorem witness_PktEncodeBuildsFrameOrRejects :
    (List.replicate 63 0x00#8).length ≤ 63 ∧ start.cfg.legal = true ∧
      (start.cfg.tt.lookup 0x00#8).map BitVec.toNat = some dead.length ∧
      (cfg40.tt.lookup 0x01#8).map BitVec.toNat = some ([] : List Byte).length ∧
      (Config.hardware.tt.lookup 0x00#8).map BitVec.toNat = some (List.replicate 48 0x00#8).length ∧
      (start.cfg.tt.lookup 0x00#8).map BitVec.toNat ≠ some [0xDE#8].length ∧
      (start.cfg.tt.lookup 0x07#8).map BitVec.toNat ≠ some ([] : List Byte).length ∧
      start.cfg.magic = 0x14#8 ∧ start.cfg.tt = [(0x00#8, 4#6)] := by decide

theorem witness_PktDecodeSlicesFrameOrRejectsInOrder :
    (List.replicate 63 0x00#8).length ≤ 63 ∧ start.cfg.legal = true := by decide

theorem witness_FrameRoundTripGivesFieldsBack :
    start.cfg.legal = true ∧ inEmit.cfg = start.cfg ∧
      (start.cfg.tt.lookup 0x00#8).map BitVec.toNat = some dead.length := by decide

theorem witness_FramesSatisfyTheirInvariant :
    cfg4.legal = true ∧ encodePacket cfg4 0x00#8 ts0 dead = .ok frameF ∧
      decodePacket cfg4 frameF = .ok ⟨0x00#8, ts0, dead, true⟩ := by decide +kernel

theorem witness_PacketOperationsArePure :
    inPl.cfg = start.cfg ∧ (∃ t, exec (.pktEncode 0x00#8 ts0 dead) start = .next t) ∧
      ∃ t, exec (.pktDecode frameF) start = .next t := ⟨rfl, ⟨_, rfl⟩, ⟨_, rfl⟩⟩

theorem witness_CorruptedPayloadIsFlaggedNotDropped :
    start.cfg.legal = true ∧ encodePacket start.cfg 0x00#8 ts0 dead = .ok frameF ∧ (0 < dead.length ∧ 0 < 8) ∧
      3 < dead.length ∧ 7 < 8 := by decide +kernel

theorem witness_SeekMagicSkipsGarbageByteByByte :
    start.cfg.legal = true ∧ start.st = .seekMagic ∧ 0x14#8 = start.cfg.magic ∧ 0x15#8 ≠ start.cfg.magic := by decide

theorem witness_ReadTypeLatchesLengthOrReports :
    inType.cfg.legal = true ∧ inType.st = .readType ∧ inType.cfg.tt.lookup 0x14#8 = none ∧
      inType.cfg.tt.lookup 0x00#8 = some 4#6 := by decide

theorem witness_ReadBodyTakesTimestamp :
    inTs.cfg.legal = true ∧ inTs.st = .readBody ∧ inTs.phase = .ts ∧ ([] : List Byte).length < 4 ∧
      [0x00#8, 0x00#8, 0x00#8].length < 4 ∧ dead.length = 4 := by decide

/-- With the length 4, and with the shortest and longest length that is read. -/
theorem witness_ReadBodyTakesPayload :
    (inPl.cfg.legal = true ∧ inPl.st = .readBody ∧ inPl.phase = .pl ∧ 1 ≤ inPl.flen.toNat ∧ inPl.flen.toNat ≤ 48 ∧
      [0xDE#8].length < inPl.flen.toNat ∧ dead.length = inPl.flen.toNat) ∧
    (∀ l ∈ [1#6, 48#6], let s := { inPl with flen := l }
      1 ≤ s.flen.toNat ∧ s.flen.toNat ≤ 48 ∧ ([] : List Byte).length < s.flen.toNat ∧
        (List.replicate l.toNat 0x00#8).length = s.flen.toNat) := by decide

theorem witness_ReadBodyTakesTrailer :
    (inTr.cfg.legal = true ∧ inTr.st = .readBody ∧ inTr.phase = .tr ∧ inTr.flen.toNat ≤ 48 ∧ [0x1C#8].length < 2 ∧
      [0x1C#8, 0xCD#8].length = 2) ∧
    ∀ l ∈ [0#6, 48#6], ({ inTr with flen := l } : State).flen.toNat ≤ 48 := by decide

theorem witness_EmitYieldsDecodedPacket :
    inEmit.cfg.legal = true ∧ inEmit.st = .emit ∧ inEmit.fb.readBytes 0 inEmit.fill.toNat = some frameF ∧
      decodePacket inEmit.cfg frameF = .ok ⟨0x00#8, ts0, dead, true⟩ := by decide +kernel

theorem witness_EndHoldsUntilStartOrReset :
    atEnd.cfg.legal = true ∧ atEnd.st = .ended ∧
      (∃ t, step { atEnd with inputs := [.reset] } = .next t ∧ t.st ≠ .ended) ∧
      ∃ t, step { atEnd with inputs := [.present syncStartPort] } = .next t ∧ t.st ≠ .ended :=
  ⟨by decide, rfl, ⟨_, rfl, by decide⟩, ⟨_, rfl, by decide⟩⟩

/-- A state of every row of the table, with the longest response its read admits. -/
theorem witness_SyncStepFollowsTransitionTable :
    (start.Inv ∧ inType.Inv ∧ inTs.Inv ∧ inPl.Inv ∧ inTr.Inv ∧ inEmit.Inv ∧ atEnd.Inv) ∧
      (start.readSize = some 1 ∧ inType.readSize = some 1 ∧ inTs.readSize = some 4 ∧ inPl.readSize = some 4 ∧
        inTr.readSize = some 2 ∧ inEmit.readSize = none ∧ atEnd.readSize = none) :=
  ⟨⟨inv_start, inv_type, inv_ts, inv_pl, inv_tr, inv_emit, inv_end⟩, by decide⟩

theorem witness_ScanEndsOnlyOnEmptyReadInSeekMagic :
    (start.st ≠ .ended ∧ ∃ t, exec (.syncStep []) start = .next t ∧ t.st = .ended) ∧
      (inType.Inv ∧ inType.st = .readType) ∧ inPl.Inv ∧ inPl.st = .readBody :=
  ⟨⟨by decide, _, rfl, rfl⟩, ⟨inv_type, rfl⟩, inv_pl, rfl⟩

theorem witness_EmitCannotFail : inEmit.Inv ∧ inEmit.st = .emit := ⟨inv_emit, rfl⟩

/-- Every size: 1, 4, `flen`, 2; `flen` at 1 and, for this hardware's table, at 48. -/
theorem witness_ReadSizesStayWithinTransportBounds :
    (start.Inv ∧ start.readSize = some 1) ∧ (inTs.Inv ∧ inTs.readSize = some 4) ∧ (inPl.Inv ∧ inPl.readSize = some 4) ∧
      (inTr.Inv ∧ inTr.readSize = some 2) ∧
      (({ inPl with cfg := cfg1, flen := 1#6 } : State).Inv ∧
        ({ inPl with cfg := cfg1, flen := 1#6 } : State).readSize = some 1) ∧
      ({ inPl with cfg := Config.hardware, flen := 48#6 } : State).Inv ∧
      ({ inPl with cfg := Config.hardware, flen := 48#6 } : State).readSize = some 48 ∧
      ([] : List Byte).length ≤ payloadMax ∧ (List.replicate 48 0x00#8).length ≤ payloadMax :=
  ⟨⟨inv_start, rfl⟩, ⟨inv_ts, rfl⟩, ⟨inv_pl, rfl⟩, ⟨inv_tr, rfl⟩,
    ⟨⟨by decide, by decide, ⟨⟨rfl, rfl, rfl⟩, rfl, by decide⟩⟩, rfl⟩,
    ⟨by decide, by decide, ⟨⟨rfl, rfl, rfl⟩, rfl, by decide⟩⟩, rfl, by decide⟩

theorem witness_StepConsumesExactlyItsResponse :
    (∃ t, issue syncStepPort { inPl with rx := [dead] } = .next t) ∧ (∃ t, exec (.syncStep dead) inPl = .next t) ∧
      (1 ≤ 1 ∧ ([] : List Byte).length ≤ 1) ∧ 1 ≤ 48 ∧ (List.replicate 48 0x00#8).length ≤ 48 :=
  ⟨⟨_, rfl⟩, ⟨_, rfl⟩, by decide⟩

theorem witness_GarbageThenFrameResynchronizes :
    start.Inv ∧ start.st = .seekMagic ∧ (∀ b ∈ [0xFF#8, 0x00#8, 0xA5#8], b ≠ start.cfg.magic) ∧
      encodePacket start.cfg 0x00#8 ts0 dead = .ok frameF ∧
      ({ start with rx := [[0xFF#8, 0x00#8, 0xA5#8] ++ frameF ++ [0x99#8]] } : State).rx =
        ([0xFF#8, 0x00#8, 0xA5#8] ++ frameF ++ [0x99#8]) :: [] :=
  ⟨inv_start, rfl, by decide, by decide +kernel, rfl⟩

theorem witness_UnknownTypeCostsExactlyOneFrame :
    let s : State := { start with rx := [[0x14#8, 0x07#8] ++ [0xAA#8, 0xBB#8, 0xCC#8, 0xDD#8] ++ frameF] }
    s.Inv ∧ s.cfg.tt.lookup 0x07#8 = none ∧ (∀ b ∈ [0xAA#8, 0xBB#8, 0xCC#8, 0xDD#8], b ≠ s.cfg.magic) ∧
      encodePacket s.cfg 0x00#8 ts0 dead = .ok frameF ∧
      s.rx = [[s.cfg.magic, 0x07#8] ++ [0xAA#8, 0xBB#8, 0xCC#8, 0xDD#8] ++ frameF] :=
  ⟨inv_of_kept inv_start ⟨rfl, rfl, rfl, rfl, rfl, rfl⟩ rfl, by decide, by decide, by decide +kernel, rfl⟩

theorem witness_ScanOfFiniteStreamTerminates : start.Inv ∧ inPl.Inv := ⟨inv_start, inv_pl⟩

/-- With a payload and without. -/
theorem witness_PresentedFrameIsScannedAndEmitted :
    (start.Inv ∧ start.st = .seekMagic ∧ start.rx = [] ∧
      (Instr.frame 0x00#8 ts0 dead 0x1C#8 0xCD#8).wf start.cfg = true) ∧
    (({ start with cfg := cfg40 } : State).Inv ∧
      (Instr.frame 0x01#8 ts0 [] 0xB5#8 0x67#8).wf ({ start with cfg := cfg40 } : State).cfg = true) :=
  ⟨⟨inv_start, rfl, rfl, by decide⟩, ⟨by decide, by decide, rfl⟩, by decide⟩

theorem witness_ColorEncodeAfterDecodeIsIdentity :
    ((0#5).toNat < (1#5).toNat ∧ (30#5).toNat < (31#5).toNat) ∧ (0#6).toNat < (1#6).toNat ∧ (62#6).toNat < (63#6).toNat := by
  decide

theorem witness_PixelPackPlacesEachSample :
    (List.replicate 24 (⟨1#8, 2#8, 3#8⟩ : Color)).length ≤ 24 ∧
      (List.replicate 24 (⟨1#8, 2#8, 3#8⟩ : Color))[23]? = some ⟨1#8, 2#8, 3#8⟩ := by decide

theorem witness_PixelUnpackReadsEachPair :
    ((List.replicate 48 0x00#8).length ≤ 48 ∧ (List.replicate 48 0x00#8).length % 2 = 0 ∧
      23 < (List.replicate 48 0x00#8).length / 2) ∧
    (List.replicate 47 0x00#8).length ≤ 48 ∧ (List.replicate 47 0x00#8).length % 2 = 1 := by decide

theorem witness_ReservedCodesRaiseIllegalOp :
    12 ≤ ({ op := 0xC#4 } : CommandPort).op.toNat ∧ 12 ≤ ({ op := 0xF#4 } : CommandPort).op.toNat := by decide

theorem witness_ErrorsHaveNoOtherEffect :
    (∃ p, encode start.cfg (.pktEncode 0x07#8 ts0 dead) = .op4 p) ∧
      (∃ t, exec (.pktEncode 0x07#8 ts0 dead) start = .next t ∧ t.err = some (.malformedPayload 0x07#8 4)) ∧
      (∃ t, exec (.pktDecode [0x15#8, 0x07#8]) start = .next t ∧ t.err = some (.badMagic 0x15#8)) ∧
      (∃ t, exec (.pixUnpack [0x00#8]) start = .next t ∧ t.err = some (.badLength 1)) ∧
      ∃ t, exec .reservedF start = .next t ∧ t.err = some (.illegalOp 0xF#4) :=
  ⟨⟨_, rfl⟩, ⟨_, rfl, rfl⟩, ⟨_, rfl, rfl⟩, ⟨_, rfl, rfl⟩, ⟨_, rfl, rfl⟩⟩

theorem witness_EachOperationOverwritesThePorts :
    let stale : State := { start with err := some (.badLength 3), event := some .ended }
    stale = { start with err := stale.err, event := stale.event } ∧ (∃ p, encode start.cfg .crcInit = .op4 p) ∧
      (∀ r, Instr.crcInit ≠ .syncStep r) ∧ (∃ t, exec .crcInit start = .next t) ∧ (∃ t, exec .crcInit stale = .next t) ∧
      (∃ t, exec (.syncStep []) start = .next t) ∧ ∃ t, exec (.syncStep []) stale = .next t :=
  ⟨rfl, ⟨_, rfl⟩, fun _ => nofun, ⟨_, rfl⟩, ⟨_, rfl⟩, ⟨_, rfl⟩, ⟨_, rfl⟩⟩

theorem witness_ErrorAndEventCodesAsTabulated :
    (∀ e : Option OpError, ∃ s : State, s.err = e) ∧ ∀ e : Option Event, ∃ s : State, s.event = e :=
  ⟨fun e => ⟨{ start with err := e }, rfl⟩, fun e => ⟨{ start with event := e }, rfl⟩⟩

theorem witness_PresentedFrameArrivesOnRx : start.cfg.legal = true ∧ inPl.cfg.legal = true := by decide

/-- Type 0x05 has the length 49; in the second table the length 49 stands behind another pair of its type, and is no entry. -/
theorem witness_IllegalTypeTableIsRefused :
    (({ start with cfg := cfg49 } : State).cfg.tt.lookup 0x05#8 = some 49#6 ∧ 48 < (49#6).toNat) ∧
      cfg49.legal = false ∧ ({ cfg4 with tt := [(0x00#8, 4#6), (0x00#8, 49#6)] } : Config).legal = true := by decide

theorem witness_OnlySyncOperationsWriteSynchronizer :
    Instr.crcInit ≠ .syncStart ∧ (∀ r, Instr.crcInit ≠ .syncStep r) ∧ ∃ t, exec .crcInit inPl = .next t :=
  ⟨nofun, fun _ => nofun, ⟨_, rfl⟩⟩

theorem witness_ConfigurationHoldsForTheRun : ∃ t, step { start with inputs := [.reset] } = .next t := ⟨_, rfl⟩

/-- A step that reads, one that emits and one that idles. -/
theorem witness_StepKeepsInvariant :
    (({ inPl with rx := [dead], inputs := [.present syncStepPort] } : State).Inv ∧
      ∃ t, step { inPl with rx := [dead], inputs := [.present syncStepPort] } = .next t) ∧
    (({ inEmit with inputs := [.present syncStepPort] } : State).Inv ∧
      ∃ t, step { inEmit with inputs := [.present syncStepPort] } = .next t) ∧
    start.Inv ∧ ∃ t, step start = .next t :=
  ⟨⟨inv_of_kept inv_pl ⟨rfl, rfl, rfl, rfl, rfl, rfl⟩ rfl, _, rfl⟩,
    ⟨inv_of_kept inv_emit ⟨rfl, rfl, rfl, rfl, rfl, rfl⟩ rfl, _, rfl⟩, inv_start, _, rfl⟩

theorem witness_StepNeverFaults :
    ({ inEmit with inputs := [.present syncStepPort] } : State).Inv ∧
      ({ inEmit with inputs := [.present syncStepPort] } : State).inputs = .present syncStepPort :: [] :=
  ⟨inv_of_kept inv_emit ⟨rfl, rfl, rfl, rfl, rfl, rfl⟩ rfl, rfl⟩

theorem witness_DecodeOfEncodeGivesInstructionBack :
    (Instr.pktEncode 0xFF#8 ts0 (List.replicate 63 0xFF#8)).wf cfg4 = true ∧
      (Instr.pixPack (List.replicate 24 ⟨0xFF#8, 0xFF#8, 0xFF#8⟩)).wf cfg4 = true ∧
      (Instr.frame 0x00#8 ts0 dead 0x1C#8 0xCD#8).wf cfg4 = true ∧
      (Instr.frameImageChunk ts0 (List.replicate 48 0x00#8) 0x00#8 0x00#8).wf Config.hardware = true := by decide

theorem witness_DecodedInstructionIsWellFormed :
    decode cfg4 (.op4 { op := 0xF#4 }) = .ok .reservedF ∧
      decode cfg4 (.wire8 frameF) = .ok (.frame 0x00#8 ts0 dead 0x1C#8 0xCD#8) ∧
      decode cfg4 (.wire16 frameF) = .ok (.frameImageChunk ts0 dead 0x1C#8 0xCD#8) ∧
      decode cfg4 (.pix16 0xF81F#16) = .ok (.pixel565 31#5 0#6 31#5) := ⟨rfl, rfl, rfl, rfl⟩

theorem witness_StepRunsDecodedInstruction :
    (({ start with inputs := [.present (.wire8 frameF)] } : State).inputs = .present (.wire8 frameF) :: [] ∧
      (∀ c, Presented.wire8 frameF = .op4 c → c.op ≠ 0x7#4) ∧
      decode start.cfg (.wire8 frameF) = .ok (.frame 0x00#8 ts0 dead 0x1C#8 0xCD#8)) ∧
    (({ inPl with inputs := [.present syncStepPort] } : State).readSize = some 4) ∧
    ({ inEmit with inputs := [.present syncStepPort] } : State).readSize = none :=
  ⟨⟨rfl, nofun, rfl⟩, rfl, rfl⟩

theorem witness_ResetInputRestoresResetValues :
    ({ inPl with inputs := [.reset, .timeout] } : State).inputs = .reset :: [.timeout] ∧ inPl.inputs = [] := ⟨rfl, rfl⟩

theorem witness_SendOffersEncodedFrameOutsideScan :
    let sends (s : State) (f : List Byte) : State := { s with inputs := [.send f 12] }
    ((sends start frameF).cfg.legal = true ∧ (sends start frameF).inputs = .send frameF 12 :: [] ∧
      encodePacket (sends start frameF).cfg 0x00#8 ts0 dead = .ok frameF ∧ (sends start frameF).st = .seekMagic ∧
      (sends start frameF).fill = 0#6 ∧ (sends atEnd frameF).st = .ended ∧ (sends atEnd frameF).cfg = start.cfg) ∧
    ((sends inPl frameF).cfg.legal = true ∧ (sends inPl frameF).inputs = .send frameF 12 :: [] ∧
      ¬ ((sends inPl frameF).st = .ended ∨ ((sends inPl frameF).st = .seekMagic ∧ (sends inPl frameF).fill = 0#6))) ∧
    ((sends start dead).inputs = .send dead 12 :: [] ∧ isEncodedFrame (sends start dead).cfg dead = false) := by
  decide +kernel

/-- The shortest operand each port does not carry; ports that carry all; garbage and a frame of an unregistered type on the
wire, under a legal table and another; a timeout with and without received bytes. -/
theorem witness_StepOnOtherInputs :
    (63 < (List.replicate 64 0x00#8).length ∧ 24 < (List.replicate 25 (⟨1#8, 2#8, 3#8⟩ : Color)).length ∧
      48 < (List.replicate 49 0x00#8).length) ∧
    (({ op := 0x6#4 } : CommandPort).op ≠ 0x7#4 ∧ ({ op := 0x6#4 } : CommandPort).payload.length ≤ 63 ∧
      ({ op := 0x6#4 } : CommandPort).frame.length ≤ 63 ∧ ({ op := 0x6#4 } : CommandPort).pixels.length ≤ 24 ∧
      ({ op := 0x6#4 } : CommandPort).pixelBytes.length ≤ 48) ∧
    (decode start.cfg (.wire8 [0xFF#8]) = .error (.notAFrame (.badLength 1)) ∧
      decode start.cfg (.wire16 [0x14#8, 0x07#8]) = .error (.notAFrame (.unknownType 0x07#8)) ∧
      decode cfg49 (.wire8 [0xFF#8]) = .error (.notAFrame (.badLength 1)) ∧ start.cfg.legal = true ∧
      cfg49.legal = false) ∧
    ({ inPl with inputs := [.timeout], rx := [dead] } : State).inputs = .timeout :: [] ∧
    ({ start with inputs := [.timeout] } : State).inputs = .timeout :: [] := by decide

end Sys2Proof.Tests
end

section
/-!
PROOFS. The sizes of the transport reads and of the frames (spec/00_scope.md R7; spec/20_memory.md R52;
spec/30_encoding.md R81).
-/

namespace Sys2Proof.Machine

/-- The states that issue a transport read and the size each asks for (R52, R153 to R157); `EMIT`, `END` and the payload
read of length 0 are not among them. -/
theorem readSize_eq_some_iff {s : State} {n : Nat} :
    s.readSize = some n ↔
      ((s.st = .seekMagic ∨ s.st = .readType) ∧ n = 1) ∨
      (s.st = .readBody ∧
        ((s.phase = .ts ∧ n = tsLen) ∨ (s.phase = .pl ∧ s.flen ≠ 0#6 ∧ n = s.flen.toNat) ∨
          (s.phase = .tr ∧ n = trailerLen))) := by
  unfold State.readSize
  cases s.st with
  | readBody => cases s.phase <;> simp [eq_comm (b := n)]
  | seekMagic | readType | emit | ended => simp [eq_comm (b := n)]

/-- Only `SEEK_MAGIC`, `READ_TYPE` and `READ_BODY` read from the transport (R158, R159). -/
theorem reading_st_of_readSize {s : State} {n : Nat} (h : s.readSize = some n) : s.st ≠ .emit ∧ s.st ≠ .ended := by
  rcases readSize_eq_some_iff.1 h with ⟨hst | hst, -⟩ | ⟨hst, -⟩ <;> simp [hst]

/-- The size of a read is one of the four of R52. -/
theorem readSize_kinds {s : State} {n : Nat} (h : s.readSize = some n) :
    n = 1 ∨ n = tsLen ∨ n = trailerLen ∨ n = s.flen.toNat := by
  rcases readSize_eq_some_iff.1 h with ⟨-, hn⟩ | ⟨-, ⟨-, hn⟩ | ⟨-, -, hn⟩ | ⟨-, hn⟩⟩ <;> simp [hn]

/-- A read is never empty and never longer than the longest payload (R52). The payload read is the one case that is not a
constant: it is issued only for `flen ≠ 0`, and the invariant bounds `flen` by the legal Type Table. -/
theorem readSize_bounds {s : State} {n : Nat} (hs : s.Inv) (h : s.readSize = some n) : 1 ≤ n ∧ n ≤ payloadMax := by
  rcases readSize_eq_some_iff.1 h with ⟨-, rfl⟩ | ⟨hst, ⟨-, rfl⟩ | ⟨-, hl, rfl⟩ | ⟨-, rfl⟩⟩
  · decide
  · decide
  · have hpos : s.flen.toNat ≠ 0 := fun h0 => hl (BitVec.eq_of_toNat_eq h0)
    exact ⟨Nat.one_le_iff_ne_zero.2 hpos, flen_le_of_inv hs (.inl hst)⟩
  · decide

/-- A frame is as long as its parts (R80, R81). -/
theorem frameBytes_length_parts (cfg : Config) (ff : FrameFields) :
    (frameBytes cfg ff).length = 2 + tsLen + ff.payload.length + trailerLen := by
  rw [frameBytes_length]
  unfold tsLen trailerLen
  omega

/-- A frame has `FRAME_MIN` to `FRAME_MAX` bytes (R7, R81). -/
theorem frameBytes_length_bounds (cfg : Config) {ff : FrameFields} (h : ff.payload.length ≤ payloadMax) :
    frameMin ≤ (frameBytes cfg ff).length ∧ (frameBytes cfg ff).length ≤ frameMax := by
  rw [frameBytes_length]
  exact ⟨Nat.le_add_right 8 _, Nat.add_le_add_left h 8⟩

/-- Settles O30: the read sizes by the cases of `readSize`, the payload read by the invariant; the frame sizes by the length
of a frame. -/
theorem readSizesStayWithinTransportBounds : Obligations.ReadSizesStayWithinTransportBounds := by
  refine ⟨fun s n hs h => ?_, by decide, fun cfg ff =>
    ⟨ff.ts.toList_length, frameBytes_length_parts cfg ff, frameBytes_length_bounds cfg⟩⟩
  obtain ⟨hpos, hmax⟩ := readSize_bounds hs h
  exact ⟨hpos, hmax, readSize_kinds h, reading_st_of_readSize h⟩

end Sys2Proof.Machine
end

section
/-!
PROOFS. What an instruction and a step can do to the synchronizer's registers, the straps and `crc` (spec/10_state.md R21 to
R25, R28, R29; spec/20_memory.md R64).
-/

namespace Sys2Proof.Machine

variable {s t : State}

/-! ### Instructions outside the Frame Synchronizer -/

theorem execPixUnpack_next {bs : List Byte} (h : execPixUnpack bs s = .next t) :
    (bs.length % 2 = 1 ∧ t = s.raise (.badLength bs.length)) ∨
      (bs.length % 2 ≠ 1 ∧ t = s.complete (.colors (unpackPixels bs))) := by
  unfold execPixUnpack at h
  split at h
  · exact .inl ⟨‹_›, (Host.Outcome.next.inj h).symm⟩
  · exact .inr ⟨‹_›, (Host.Outcome.next.inj h).symm⟩

/-- How an instruction that is no operation of the Frame Synchronizer ends when it completes. -/
inductive OpEnd (s : State) : State → Prop where
  | completed (c : Half) (r : Result) : OpEnd s ({ s with crc := c }.complete r)
  | raised (e : OpError) : OpEnd s (s.raise e)
  | arrived (bs : List Byte) : OpEnd s (s.arrive bs)

theorem OpEnd.syncKept (h : OpEnd s t) : SyncKept s t := by
  cases h with
  | completed c r => exact ⟨rfl, rfl, rfl, rfl, rfl, rfl⟩
  | raised e => exact (raise_coreKept s e).sync
  | arrived bs => exact (arrive_coreKept s bs).sync

theorem OpEnd.cfg_eq (h : OpEnd s t) : t.cfg = s.cfg := by
  cases h <;> rfl

/-- An instruction other than SYNC.START and SYNC.STEP completes, raises an error or puts bytes on RX. -/
theorem exec_opEnd {i : Instr} (hstart : i ≠ .syncStart) (hstep : ∀ r, i ≠ .syncStep r) (h : exec i s = .next t) :
    OpEnd s t := by
  cases i with
  | crcInit | crcUpdate | crcCompute | crcVerify => cases h; exact .completed _ _
  | c565Enc | c565Dec | pixPack | pixel565 => cases h; exact .completed s.crc _
  | reservedC | reservedD | reservedE | reservedF => cases h; exact .raised _
  | pktEncode type ts payload =>
    obtain ⟨-, ⟨f, -, rfl⟩ | ⟨e, -, rfl⟩⟩ := execPktEncode_next h
    · exact .completed s.crc _
    · exact .raised e
  | pktDecode f =>
    obtain ⟨-, ⟨p, -, rfl⟩ | ⟨e, -, rfl⟩⟩ := execPktDecode_next h
    · exact .completed s.crc _
    · exact .raised e
  | pixUnpack bs =>
    obtain ⟨-, rfl⟩ | ⟨-, rfl⟩ := execPixUnpack_next h
    · exact .raised _
    · exact .completed s.crc _
  | frame | frameImageChunk => obtain ⟨-, rfl⟩ := execFrame_next.1 h; exact .arrived _
  | syncStart => exact absurd rfl hstart
  | syncStep r => exact absurd rfl (hstep r)

/-- Settles O49: the ways such an instruction ends all keep the six registers. -/
theorem onlySyncOperationsWriteSynchronizer : Obligations.OnlySyncOperationsWriteSynchronizer :=
  fun _ _ _ hstart hstep h => (exec_opEnd hstart hstep h).syncKept

/-! ### The CRC register -/

/-- An instruction that has nothing to do with `crc` (R21): it keeps the register and does the same whatever it holds. -/
def CrcApart (i : Instr) : Prop :=
  ∀ s t, exec i s = .next t → t.crc = s.crc ∧ ∀ c, exec i { s with crc := c } = .next { t with crc := c }

theorem crcApart_pktEncode (type : Byte) (ts : Timestamp) (payload : List Byte) :
    CrcApart (.pktEncode type ts payload) := by
  intro s t h
  obtain ⟨hl, ⟨f, hf, rfl⟩ | ⟨e, he, rfl⟩⟩ := execPktEncode_next h
  · exact ⟨rfl, fun c => (execPktEncode_eq (s := { s with crc := c }) hl).trans (by rw [hf]; rfl)⟩
  · exact ⟨rfl, fun c => (execPktEncode_eq (s := { s with crc := c }) hl).trans (by rw [he]; rfl)⟩

theorem crcApart_pktDecode (f : List Byte) : CrcApart (.pktDecode f) := by
  intro s t h
  obtain ⟨hl, ⟨p, hp, rfl⟩ | ⟨e, he, rfl⟩⟩ := execPktDecode_next h
  · exact ⟨rfl, fun c => (execPktDecode_eq (s := { s with crc := c }) hl).trans (by rw [hp]; rfl)⟩
  · exact ⟨rfl, fun c => (execPktDecode_eq (s := { s with crc := c }) hl).trans (by rw [he]; rfl)⟩

theorem crcApart_pixUnpack (bs : List Byte) : CrcApart (.pixUnpack bs) := by
  intro s t h
  obtain ⟨hodd, rfl⟩ | ⟨heven, rfl⟩ := execPixUnpack_next h
  · exact ⟨rfl, fun c => if_pos hodd⟩
  · exact ⟨rfl, fun c => if_neg heven⟩

theorem crcApart_frame (type : Byte) (ts : Timestamp) (payload : List Byte) (c0 c1 : Byte) :
    CrcApart (.frame type ts payload c0 c1) := by
  intro s t h
  obtain ⟨hl, rfl⟩ := execFrame_next.1 h
  exact ⟨rfl, fun c => execFrame_next.2 ⟨hl, rfl⟩⟩

/-- No move of SYNC.STEP looks at `crc`. -/
theorem syncMove_withCrc {r : List Byte} (c : Half) (h : SyncMove s r t) :
    SyncMove { s with crc := c } r { t with crc := c } := by
  cases h with
  | scanEnds hst => exact .scanEnds hst
  | magicFound b r hst hb => exact .magicFound b r hst hb
  | garbage b r hst hb => exact .garbage b r hst hb
  | typeShort hst => exact .typeShort hst
  | typeUnknown b r hst hb => exact .typeUnknown b r hst hb
  | typeKnown b r l hst hb => exact .typeKnown b r l hst hb
  | tsShort r hst hph hr => exact .tsShort r hst hph hr
  | tsRead r hst hph hr hfit => exact .tsRead r hst hph hr hfit
  | plNone r hst hph hl => exact .plNone r hst hph hl
  | plShort r hst hph hl hr => exact .plShort r hst hph hl hr
  | plRead r hst hph hl hr hfit => exact .plRead r hst hph hl hr hfit
  | trShort r hst hph hr => exact .trShort r hst hph hr
  | trRead r hst hph hr hfit => exact .trRead r hst hph hr hfit
  | emitted r f p hst hf hp => exact .emitted r f p hst hf hp
  | atEnd r hst => exact .atEnd r hst

theorem crcApart_syncStep (r : List Byte) : CrcApart (.syncStep r) := by
  intro s t h
  obtain ⟨hl, ho, hm⟩ := execSyncStep_iff.1 h
  exact ⟨(syncMove_kept hm).1, fun c => execSyncStep_iff.2 ⟨hl, ho, syncMove_withCrc c hm⟩⟩

/-- Every instruction but the four CRC operations. -/
theorem crcApart_of_not_crc {i : Instr} (hinit : i ≠ .crcInit) (hupdate : ∀ b, i ≠ .crcUpdate b)
    (hcompute : ∀ str, i ≠ .crcCompute str) (hverify : ∀ str t0 t1, i ≠ .crcVerify str t0 t1) : CrcApart i := by
  cases i with
  | crcInit => exact absurd rfl hinit
  | crcUpdate b => exact absurd rfl (hupdate b)
  | crcCompute str => exact absurd rfl (hcompute str)
  | crcVerify str t0 t1 => exact absurd rfl (hverify str t0 t1)
  | pktEncode type ts payload => exact crcApart_pktEncode type ts payload
  | pktDecode f => exact crcApart_pktDecode f
  | syncStep r => exact crcApart_syncStep r
  | pixUnpack bs => exact crcApart_pixUnpack bs
  | frame type ts payload c0 c1 => exact crcApart_frame type ts payload c0 c1
  | frameImageChunk ts payload c0 c1 => exact crcApart_frame 0x00#8 ts payload c0 c1
  | syncStart | c565Enc | c565Dec | pixPack | pixel565 | reservedC | reservedD | reservedE | reservedF =>
    intro s t h
    cases h
    exact ⟨rfl, fun _ => rfl⟩

/-- Settles O11: instruction by instruction, SYNC.STEP by its moves; `crc_out` and the reset value by definition. -/
theorem crcRegisterBelongsToCrcEngine : Obligations.CrcRegisterBelongsToCrcEngine := by
  refine ⟨fun i s t hi h => ?_, fun _ => rfl, rfl⟩
  exact crcApart_of_not_crc (hi [] 0#8 0#8 0#8).1 (fun b => (hi [] 0#8 0#8 b).2.1)
    (fun str => (hi str 0#8 0#8 0#8).2.2.1) (fun str t0 t1 => (hi str t0 t1 0#8).2.2.2) s t h

/-! ### What a step can do -/

/-- An instruction that completes is SYNC.START, a move of SYNC.STEP, or ends as the others do. -/
theorem exec_cases {i : Instr} (h : exec i s = .next t) :
    t = ({ s with st := .seekMagic, phase := .ts }.setFill 0).complete .noResult ∨
      (∃ r, s.overrun r = false ∧ SyncMove s r t) ∨ OpEnd s t := by
  by_cases hstart : i = .syncStart
  · subst hstart
    exact .inl (Host.Outcome.next.inj h).symm
  · by_cases hstep : ∃ r, i = .syncStep r
    · obtain ⟨r, rfl⟩ := hstep
      obtain ⟨-, ho, hm⟩ := execSyncStep_iff.1 h
      exact .inr (.inl ⟨r, ho, hm⟩)
    · exact .inr (.inr (exec_opEnd hstart (fun r hr => hstep ⟨r, hr⟩) h))

theorem exec_cfg {i : Instr} (h : exec i s = .next t) : t.cfg = s.cfg := by
  obtain rfl | ⟨r, -, hm⟩ | he := exec_cases h
  · rfl
  · obtain ⟨-, hcfg, -⟩ := syncMove_kept hm
    exact hcfg
  · exact he.cfg_eq

/-- All that a transport write does: it is recorded (R54). -/
theorem sendFrame_next {f : List Byte} {written : Nat} (h : sendFrame f written s = .next t) :
    t = { s with tx := s.tx ++ [f], txCount := some written } := by
  obtain ⟨-, h⟩ := whenLegal_next h
  split at h
  · cases h
  · split at h
    · exact (Host.Outcome.next.inj h).symm
    · cases h

/-- A step that answers a next state runs an instruction (with an input taken and the transport's answer removed from RX), is
the reset input, or touches neither the synchronizer nor the straps. -/
theorem step_cases (h : step s = .next t) :
    (∃ i rest rx, exec i { s with inputs := rest, rx := rx } = .next t) ∨
      (∃ rest, t = ({ s with inputs := rest } : State).assertReset) ∨ (SyncKept s t ∧ t.cfg = s.cfg) := by
  cases hin : s.inputs with
  | nil =>
    obtain rfl := Host.Outcome.next.inj ((step_idle hin).symm.trans h)
    exact .inr (.inr ⟨.refl s, rfl⟩)
  | cons input rest =>
    rw [step_serves hin] at h
    cases input with
    | present p =>
      obtain ⟨i, -, hexec⟩ | ⟨bs, -, -, rfl⟩ := issue_cases h
      · obtain ⟨rx, hrx⟩ := answered_state p { s with inputs := rest }
        exact .inl ⟨i, rest, rx, hrx ▸ hexec⟩
      · exact .inr (.inr ⟨⟨rfl, rfl, rfl, rfl, rfl, rfl⟩, rfl⟩)
    | reset => exact .inr (.inl ⟨rest, (Host.Outcome.next.inj h).symm⟩)
    | send f written =>
      obtain rfl := sendFrame_next h
      exact .inr (.inr ⟨⟨rfl, rfl, rfl, rfl, rfl, rfl⟩, rfl⟩)
    | timeout =>
      obtain rfl := Host.Outcome.next.inj h
      exact .inr (.inr ⟨⟨rfl, rfl, rfl, rfl, rfl, rfl⟩, rfl⟩)

/-- Settles O50: neither an instruction nor any other input writes the straps. -/
theorem configurationHoldsForTheRun : Obligations.ConfigurationHoldsForTheRun := by
  intro s t h
  obtain ⟨i, rest, rx, hexec⟩ | ⟨rest, rfl⟩ | ⟨-, hcfg⟩ := step_cases h
  · have hcfg := exec_cfg hexec
    exact hcfg
  · rfl
  · exact hcfg

end Sys2Proof.Machine
end

section
/-!
PROOFS. The invariant of the synchronizer's registers and frame buffer holds at reset and every step keeps it
(spec/10_state.md R24, R25, R35; spec/42_sync.md R153 to R158, R165).
-/

namespace Sys2Proof.Machine

variable {s t : State} {r : List Byte}

/-! ### What `control` says in each state -/

theorem control_readType (hst : s.st = .readType) : s.control ↔ s.fill = 1#6 ∧ s.fb.read 0 = some s.cfg.magic := by
  simp [State.control, hst]

theorem control_readTs (hst : s.st = .readBody) (hph : s.phase = .ts) :
    s.control ↔ s.headerRead ∧ s.fill = 2#6 := by
  simp [State.control, hst, hph]

theorem control_readPl (hst : s.st = .readBody) (hph : s.phase = .pl) :
    s.control ↔ s.headerRead ∧ s.fill = 6#6 ∧ s.flen ≠ 0#6 := by
  simp [State.control, hst, hph]

theorem control_readTr (hst : s.st = .readBody) (hph : s.phase = .tr) :
    s.control ↔ s.headerRead ∧ s.fill.toNat = 6 + s.flen.toNat := by
  simp [State.control, hst, hph]

theorem control_emit (hst : s.st = .emit) : s.control ↔ s.headerRead ∧ s.fill.toNat = 8 + s.flen.toNat := by
  simp [State.control, hst]

/-- Between frames the buffer is empty. -/
theorem control_idle (hst : s.st = .seekMagic ∨ s.st = .ended) : s.control ↔ s.fill = 0#6 := by
  rcases hst with hst | hst <;> simp [State.control, hst]

/-- The header depends on the buffer, the straps and the two latches alone. -/
theorem headerRead_congr (h : s.headerRead) (hfb : t.fb = s.fb) (hcfg : t.cfg = s.cfg) (htype : t.ftype = s.ftype)
    (hlen : t.flen = s.flen) : t.headerRead :=
  ⟨by rw [hfb, hcfg, h.magicAt0], by rw [hfb, htype, h.typeAt1], by rw [hcfg, htype, hlen, h.lengthOfType]⟩

/-- With an empty buffer and no frame in progress the invariant asks for a legal table only. -/
theorem inv_of_empty (hl : s.cfg.legal = true) (hst : s.st = .seekMagic ∨ s.st = .ended) (hfb : s.fb = [])
    (hfill : s.fill = 0#6) : s.Inv :=
  ⟨hl, by simp [hfb, hfill], (control_idle hst).2 hfill⟩

/-- With nothing filled the buffer lists nothing (R24). -/
theorem fb_eq_nil_of_inv (h : s.Inv) (hfill : s.fill = 0#6) : s.fb = [] := by
  have hb := h.bufferFilled
  simpa [hfill] using hb

/-- Settles O51: the reset state is empty, in SEEK_MAGIC, under the legal table of this hardware. -/
theorem resetStateSatisfiesInvariant : Obligations.ResetStateSatisfiesInvariant :=
  inv_of_empty (by decide) (.inl rfl) rfl rfl

theorem inv_assertReset (h : s.Inv) : s.assertReset.Inv :=
  inv_of_empty h.cfgLegal (.inl rfl) rfl rfl

/-! ### The moves of SYNC.STEP that store -/

/-- R153: the magic byte is stored at index 0. -/
theorem inv_magicFound (h : s.Inv) (hst : s.st = .seekMagic) :
    ({ s.stored 0 [s.cfg.magic] with st := .readType }.produce (some 1) none .noResult).Inv := by
  have hfill : s.fill = 0#6 := (control_idle (.inl hst)).1 h.controlled
  refine ⟨h.cfgLegal, bufferFilled_stored h.bufferFilled (by simp [hfill]) (by simp), (control_readType rfl).2 ⟨rfl, ?_⟩⟩
  show ((s.fb.writeBytes 0 [s.cfg.magic]).below (0 + 1)).read 0 = some s.cfg.magic
  exact read_store s.fb 0 [s.cfg.magic] 0

/-- R154: a registered type is stored at index 1 and latched with its length. -/
theorem inv_typeKnown {b : Byte} {l : Len} (h : s.Inv) (hst : s.st = .readType) (hb : s.cfg.tt.lookup b = some l) :
    ({ s.stored 1 [b] with ftype := b, flen := l, phase := .ts, st := .readBody }.produce (some 1) none .noResult).Inv := by
  obtain ⟨hfill, hmagic⟩ := (control_readType hst).1 h.controlled
  refine ⟨h.cfgLegal, bufferFilled_stored h.bufferFilled (by simp [hfill]) (by simp),
    (control_readTs rfl rfl).2 ⟨⟨?_, ?_, hb⟩, rfl⟩⟩
  · show ((s.fb.writeBytes 1 [b]).below (1 + 1)).read 0 = some s.cfg.magic
    exact (read_store s.fb 1 [b] 0).trans hmagic
  · show ((s.fb.writeBytes 1 [b]).below (1 + 1)).read 1 = some b
    exact read_store s.fb 1 [b] 1

/-- R155: the timestamp ends at index 6; an empty payload is complete at once. -/
theorem inv_tsRead (h : s.Inv) (hst : s.st = .readBody) (hph : s.phase = .ts) (hr : r.length = 4) :
    ({ s.stored 2 r with phase := if s.flen = 0#6 then .tr else .pl }.produce (some 4) none .noResult).Inv := by
  obtain ⟨hhead, hfill⟩ := (control_readTs hst hph).1 h.controlled
  have hhead' := headerRead_stored (bs := r) (Nat.le_refl 2) hhead
  refine ⟨h.cfgLegal, bufferFilled_stored h.bufferFilled (by simp [hfill]) (by omega), ?_⟩
  by_cases hlen : s.flen = 0#6
  · refine (control_readTr (by simp [hst]) (by simp [hlen])).2 ⟨headerRead_congr hhead' rfl rfl rfl rfl, ?_⟩
    simp [hr, hlen]
  · refine (control_readPl (by simp [hst]) (by simp [hlen])).2 ⟨headerRead_congr hhead' rfl rfl rfl rfl, ?_, hlen⟩
    simp [hr]

/-- R156: the payload ends at index `6 + flen`. -/
theorem inv_plRead (h : s.Inv) (hst : s.st = .readBody) (hph : s.phase = .pl) (hr : r.length = s.flen.toNat) :
    ({ s.stored 6 r with phase := .tr }.produce (some s.flen.toNat) none .noResult).Inv := by
  obtain ⟨hhead, hfill, -⟩ := (control_readPl hst hph).1 h.controlled
  have hlen := flen_le_of_inv h (.inl hst)
  refine ⟨h.cfgLegal, bufferFilled_stored h.bufferFilled (by simp [hfill]) (by omega), ?_⟩
  refine (control_readTr (by simp [hst]) rfl).2
    ⟨headerRead_congr (headerRead_stored (bs := r) (by omega) hhead) rfl rfl rfl rfl, ?_⟩
  show (BitVec.ofNat 6 (6 + r.length)).toNat = 6 + s.flen.toNat
  rw [toNat_fill (by omega), hr]

/-- R157: with the trailer the buffer holds the whole frame of `8 + flen` bytes. -/
theorem inv_trRead (h : s.Inv) (hst : s.st = .readBody) (hph : s.phase = .tr) (hr : r.length = 2) :
    ({ s.stored (6 + s.flen.toNat) r with st := .emit }.produce (some 2) none .noResult).Inv := by
  obtain ⟨hhead, hfill⟩ := (control_readTr hst hph).1 h.controlled
  have hlen := flen_le_of_inv h (.inl hst)
  refine ⟨h.cfgLegal, bufferFilled_stored h.bufferFilled hfill (by omega), (control_emit rfl).2
    ⟨headerRead_congr (headerRead_stored (bs := r) (by omega) hhead) rfl rfl rfl rfl, ?_⟩⟩
  show (BitVec.ofNat 6 (6 + s.flen.toNat + r.length)).toNat = 8 + s.flen.toNat
  rw [toNat_fill (by omega)]
  omega

/-! ### Every step -/

/-- A SYNC.STEP keeps the invariant, whatever bytes it reads. That the response is no longer than the read is what bounds the
stores. -/
theorem inv_syncMove (h : s.Inv) (ho : s.overrun r = false) (hm : SyncMove s r t) : t.Inv := by
  have hread : ∀ {n}, s.readSize = some n → r.length ≤ n := fun hn => length_le_of_overrun ho hn
  cases hm with
  | scanEnds hst =>
    have hfill : s.fill = 0#6 := (control_idle (.inl hst)).1 h.controlled
    have hfb : s.fb = [] := fb_eq_nil_of_inv h hfill
    exact inv_of_empty h.cfgLegal (.inr rfl) hfb hfill
  | magicFound b r hst hb => subst hb; exact inv_magicFound h hst
  | garbage b r hst hb => exact inv_of_kept h ⟨rfl, rfl, rfl, rfl, rfl, rfl⟩ rfl
  | typeShort hst => exact inv_dropFrame h
  | typeUnknown b r hst hb => exact inv_dropFrame h
  | typeKnown b r l hst hb => exact inv_typeKnown h hst hb
  | tsShort r hst hph hr => exact inv_dropFrame h
  | tsRead r hst hph hr hfit =>
    have hle : r.length ≤ 4 := hread (readSize_eq_some_iff.2 (.inr ⟨hst, .inl ⟨hph, rfl⟩⟩))
    exact inv_tsRead h hst hph (by omega)
  | plNone r hst hph hl =>
    obtain ⟨-, -, hpos⟩ := (control_readPl hst hph).1 h.controlled
    exact absurd hl hpos
  | plShort r hst hph hl hr => exact inv_dropFrame h
  | plRead r hst hph hl hr hfit =>
    have hle : r.length ≤ s.flen.toNat := hread (readSize_eq_some_iff.2 (.inr ⟨hst, .inr (.inl ⟨hph, hl, rfl⟩)⟩))
    exact inv_plRead h hst hph (by omega)
  | trShort r hst hph hr => exact inv_dropFrame h
  | trRead r hst hph hr hfit =>
    have hle : r.length ≤ 2 := hread (readSize_eq_some_iff.2 (.inr ⟨hst, .inr (.inr ⟨hph, rfl⟩)⟩))
    exact inv_trRead h hst hph (by omega)
  | emitted r f p hst hf hp => exact inv_of_empty h.cfgLegal (.inl rfl) (Memory.below_zero _) rfl
  | atEnd r hst => exact inv_of_kept h ⟨rfl, rfl, rfl, rfl, rfl, rfl⟩ rfl

theorem inv_exec {i : Instr} (h : s.Inv) (he : exec i s = .next t) : t.Inv := by
  obtain rfl | ⟨r, ho, hm⟩ | hend := exec_cases he
  · exact inv_of_empty h.cfgLegal (.inl rfl) (Memory.below_zero _) rfl
  · exact inv_syncMove h ho hm
  · exact inv_of_kept h hend.syncKept hend.cfg_eq

theorem inv_step (h : s.Inv) (hs : step s = .next t) : t.Inv := by
  obtain ⟨i, rest, rx, hexec⟩ | ⟨rest, rfl⟩ | ⟨hk, hcfg⟩ := step_cases hs
  · refine inv_exec ?_ hexec
    exact inv_of_kept h ⟨rfl, rfl, rfl, rfl, rfl, rfl⟩ rfl
  · exact inv_assertReset (inv_of_kept h ⟨rfl, rfl, rfl, rfl, rfl, rfl⟩ rfl)
  · exact inv_of_kept h hk hcfg

/-- The invariant bounds the fill count by the size of the buffer, 56 (R24, R30). -/
theorem fill_le_frameMax (h : s.Inv) : s.fill.toNat ≤ frameMax := by
  have hc := h.controlled
  simp only [frameMax]
  cases hst : s.st with
  | seekMagic => simp [(control_idle (.inl hst)).1 hc]
  | ended => simp [(control_idle (.inr hst)).1 hc]
  | readType => simp [((control_readType hst).1 hc).1]
  | emit =>
    have hlen := flen_le_of_inv h (.inr hst)
    obtain ⟨-, hfill⟩ := (control_emit hst).1 hc
    omega
  | readBody =>
    have hlen := flen_le_of_inv h (.inl hst)
    cases hph : s.phase with
    | ts => simp [((control_readTs hst hph).1 hc).2]
    | pl => simp [((control_readPl hst hph).1 hc).2.1]
    | tr =>
      obtain ⟨-, hfill⟩ := (control_readTr hst hph).1 hc
      omega

theorem fb_wf_of_inv (h : s.Inv) : s.fb.wf := Memory.wf_of_keys h.bufferFilled (fill_le_frameMax h)

/-- Settles O52: the invariant is kept by each instruction, SYNC.STEP move by move, and by every other input; a buffer filled
from 0 to at most 56 is in canonical form. -/
theorem stepKeepsInvariant : Obligations.StepKeepsInvariant :=
  fun _ _ h hs => ⟨inv_step h hs, fb_wf_of_inv (inv_step h hs)⟩

end Sys2Proof.Machine
end

section
/-!
PROOFS. What a step does with each input (spec/10_state.md R37, R38; spec/20_memory.md R66; spec/42_sync.md R151), and what
is refused under an illegal Type Table (spec/10_state.md R30).
-/

namespace Sys2Proof.Machine

variable {s : State} {rest : List Input}

/-! ### An illegal Type Table -/

/-- Settles O48: legality by `legal_iff`; each reader of the table refuses at its `whenLegal`. -/
theorem illegalTypeTableIsRefused : Obligations.IllegalTypeTableIsRefused := by
  refine ⟨fun _ => legal_iff, fun s ⟨t, l, hl, hlong⟩ => ?_⟩
  have hill : s.cfg.legal ≠ true := fun h => absurd (lookup_le_of_legal h hl) (Nat.not_le.2 hlong)
  exact ⟨fun _ _ _ => whenLegal_illegal _ hill, fun _ => whenLegal_illegal _ hill, fun _ => whenLegal_illegal _ hill,
    fun _ _ _ _ _ => whenLegal_illegal _ hill, fun _ _ _ _ => whenLegal_illegal _ hill,
    fun _ _ => whenLegal_illegal _ hill⟩

/-! ### Presentations other than SYNC.STEP -/

theorem step_present {p : Presented} (hin : s.inputs = .present p :: rest) :
    step s = issue p { s with inputs := rest } := step_serves hin

theorem issue_decoded {p : Presented} {i : Instr} (hp : ∀ c, p = .op4 c → c.op ≠ 0x7#4) (hd : decode s.cfg p = .ok i) :
    issue p s = exec i s := by
  simp only [issue, answered_other s hp, hd]

theorem issue_undecodable {p : Presented} {e : DecodeError} (hp : ∀ c, p = .op4 c → c.op ≠ 0x7#4)
    (hd : decode s.cfg p = .error e) : issue p s = undecodable p e s := by
  simp only [issue, answered_other s hp, hd]

/-! ### SYNC.STEP -/

theorem decodeCommand_syncStep {c : CommandPort} (hop : c.op = 0x7#4) (hlen : c.rx.length ≤ portMax) :
    decodeCommand c = .ok (.syncStep c.rx) := by
  unfold decodeCommand
  rw [hop]
  exact if_pos hlen

/-- Every read fits the 6-bit response ports, in every state (R37). -/
theorem readSize_le_portMax {n : Nat} (h : s.readSize = some n) : n ≤ portMax := by
  rcases readSize_eq_some_iff.1 h with ⟨-, rfl⟩ | ⟨-, ⟨-, rfl⟩ | ⟨-, -, rfl⟩ | ⟨-, rfl⟩⟩
  · decide
  · decide
  · exact Nat.le_of_lt_succ s.flen.isLt
  · decide

/-- A SYNC.STEP that issues a read takes the channel's answer to it (R51, R151). -/
theorem issue_op7_read {c : CommandPort} {n : Nat} (hop : c.op = 0x7#4) (hn : s.readSize = some n) :
    issue (.op4 c) s = exec (.syncStep (channelRead s.rx n).1) { s with rx := (channelRead s.rx n).2 } := by
  have hlen : (channelRead s.rx n).1.length ≤ portMax :=
    (channelRead_length s.rx n).trans (readSize_le_portMax hn)
  have hd := decodeCommand_syncStep (c := { c with rx := (channelRead s.rx n).1 }) hop hlen
  simp only [issue, answered_syncStep s hop, hn, decode, hd]

/-- A SYNC.STEP that issues no read takes no bytes. -/
theorem issue_op7_noRead {c : CommandPort} (hop : c.op = 0x7#4) (hn : s.readSize = none) :
    issue (.op4 c) s = exec (.syncStep []) s := by
  have hd := decodeCommand_syncStep (c := { c with rx := [] }) hop (Nat.zero_le _)
  simp only [issue, answered_syncStep s hop, hn, decode, hd]

/-- Settles O57: the oldest input is served, and what `issue` runs is the decoded instruction. -/
theorem stepRunsDecodedInstruction : Obligations.StepRunsDecodedInstruction :=
  ⟨fun _ _ _ _ hin hp hd => (step_present hin).trans (issue_decoded hp hd),
    fun _ _ _ _ hin hop hn => (step_present hin).trans (issue_op7_read hop hn),
    fun _ _ _ hin hop hn => (step_present hin).trans (issue_op7_noRead hop hn)⟩

/-! ### Command ports that are no instruction -/

/-- A command port whose operation has an operand wider than its port (R37, R184, R185). -/
inductive TooWide (c : CommandPort) : DecodeError → Prop where
  | payload (hop : c.op = 0x4#4) (h : portMax < c.payload.length) : TooWide c (.payloadTooLong c.payload.length)
  | frame (hop : c.op = 0x5#4) (h : portMax < c.frame.length) : TooWide c (.frameTooLong c.frame.length)
  | response (hop : c.op = 0x7#4) (h : portMax < c.rx.length) : TooWide c (.responseTooLong c.rx.length)
  | pixels (hop : c.op = 0xA#4) (h : pixelMax < c.pixels.length) : TooWide c (.tooManyPixels c.pixels.length)
  | pixelBytes (hop : c.op = 0xB#4) (h : payloadMax < c.pixelBytes.length) :
      TooWide c (.pixelBytesTooLong c.pixelBytes.length)

theorem decodeCommand_error_of_tooWide {c : CommandPort} {e : DecodeError} (h : TooWide c e) :
    decodeCommand c = .error e := by
  unfold decodeCommand
  cases h with
  | payload hop h | frame hop h | response hop h | pixels hop h | pixelBytes hop h =>
    rw [hop]
    exact if_neg (Nat.not_le.2 h)

theorem not_of_guard_error {p : Prop} [Decidable p] {i : Instr} {e e' : DecodeError}
    (h : (if p then .ok i else .error e' : Except DecodeError Instr) = .error e) : ¬p ∧ e = e' := by
  split at h
  · cases h
  · exact ⟨‹_›, (Except.error.inj h).symm⟩

/-- Only the five codes with a bounded operand can fail to decode. -/
theorem tooWide_of_decodeCommand_error {c : CommandPort} {e : DecodeError} (h : decodeCommand c = .error e) :
    TooWide c e := by
  have hop : ∀ {v : BitVec 4}, c.op.toNat = v.toNat → c.op = v := BitVec.eq_of_toNat_eq
  unfold decodeCommand at h
  split at h
  case h_5 h4 => obtain ⟨hlen, rfl⟩ := not_of_guard_error h; exact .payload (hop h4) (Nat.not_le.1 hlen)
  case h_6 h5 => obtain ⟨hlen, rfl⟩ := not_of_guard_error h; exact .frame (hop h5) (Nat.not_le.1 hlen)
  case h_8 h7 => obtain ⟨hlen, rfl⟩ := not_of_guard_error h; exact .response (hop h7) (Nat.not_le.1 hlen)
  case h_11 hA => obtain ⟨hlen, rfl⟩ := not_of_guard_error h; exact .pixels (hop hA) (Nat.not_le.1 hlen)
  case h_12 hB => obtain ⟨hlen, rfl⟩ := not_of_guard_error h; exact .pixelBytes (hop hB) (Nat.not_le.1 hlen)
  all_goals cases h

/-- Too wide an operand is refused by name (log 13). -/
theorem step_tooWide {c : CommandPort} {e : DecodeError} (hin : s.inputs = .present (.op4 c) :: rest)
    (hop : c.op ≠ 0x7#4) (h : TooWide c e) : step s = .refused (.notPresentable e) :=
  (step_present hin).trans
    (issue_undecodable (fun _ hc => Presented.op4.inj hc ▸ hop) (decodeCommand_error_of_tooWide h))

/-- With every operand within its port a command port decodes. -/
theorem decodeCommand_ok {c : CommandPort} (hop : c.op ≠ 0x7#4) (hp : c.payload.length ≤ portMax)
    (hf : c.frame.length ≤ portMax) (hx : c.pixels.length ≤ pixelMax) (hb : c.pixelBytes.length ≤ payloadMax) :
    ∃ i, decodeCommand c = .ok i := by
  cases hd : decodeCommand c with
  | ok i => exact ⟨i, rfl⟩
  | error e =>
    cases tooWide_of_decodeCommand_error hd with
    | payload _ h => exact absurd hp (Nat.not_le.2 h)
    | frame _ h => exact absurd hf (Nat.not_le.2 h)
    | response h7 _ => exact absurd h7 hop
    | pixels _ h => exact absurd hx (Nat.not_le.2 h)
    | pixelBytes _ h => exact absurd hb (Nat.not_le.2 h)

/-! ### Wire bytes that are no frame, and a timeout -/

/-- Undecodable wire bytes go where a frame's bytes go, under the same condition (log 14, log 18). -/
theorem step_wireGarbage {p : Presented} {f : List Byte} {e : DecodeError} (hp : p = .wire8 f ∨ p = .wire16 f)
    (hin : s.inputs = .present p :: rest) (hd : decode s.cfg p = .error e) :
    step s = whenLegal s (.next (({ s with inputs := rest } : State).arrive f)) := by
  rw [step_present hin]
  rcases hp with rfl | rfl <;> exact issue_undecodable (s := { s with inputs := rest }) (by nofun) hd

/-- Behind a boundary that ends the contents of RX, bytes that arrive begin a segment of their own (R66). -/
theorem channelArrive_boundary (segs : List (List Byte)) (bs : List Byte) :
    channelArrive (segs ++ [[]]) bs = segs ++ [bs] := by
  induction segs with
  | nil => rfl
  | cons seg segs ih =>
    cases segs with
    | nil => rfl
    | cons seg' segs => exact congrArg (seg :: ·) ih

/-- A timeout closes the last segment; where none was begun, it closes an empty one. -/
theorem channelTimeout_eq (rx : List (List Byte)) : channelTimeout rx = (if rx = [] then [[]] else rx) ++ [[]] := by
  cases rx <;> rfl

/-- Settles O60: command ports by what `decodeCommand` rejects, wire bytes by `step_wireGarbage`, a timeout by the boundary
it leaves. -/
theorem stepOnOtherInputs : Obligations.StepOnOtherInputs := by
  refine ⟨fun s c rest hin => ⟨fun hop h => ?_, fun hop h => ?_, fun hop h => ?_, fun hop h => ?_⟩,
    fun _ _ hop hp hf hx hb => decodeCommand_ok hop hp hf hx hb, fun _ _ => ⟨_, rfl⟩,
    fun s p f rest e hp hin hd => ⟨fun hl => ?_, fun hl => ?_⟩, fun s rest hin => ?_⟩
  · exact step_tooWide hin (by simp [hop]) (.payload hop h)
  · exact step_tooWide hin (by simp [hop]) (.frame hop h)
  · exact step_tooWide hin (by simp [hop]) (.pixels hop h)
  · exact step_tooWide hin (by simp [hop]) (.pixelBytes hop h)
  · exact ⟨_, (step_wireGarbage hp hin hd).trans (whenLegal_legal _ hl), channelArrive_flatten s.rx f, rfl⟩
  · exact (step_wireGarbage hp hin hd).trans (whenLegal_illegal _ (by simp [hl]))
  · refine ⟨_, step_serves hin, rfl, channelTimeout_eq s.rx, fun bs => ?_⟩
    show channelArrive (channelTimeout s.rx) bs = _
    rw [channelTimeout_eq]
    exact channelArrive_boundary _ bs

end Sys2Proof.Machine
end

section
/-!
PROOFS. The transport accesses (spec/20_memory.md R51, R54, R62, R66): what a SYNC.STEP takes from RX, which byte strings are
encoded frames, and what a send offers on TX.
-/

namespace Sys2Proof.Machine

variable {s t : State}

/-! ### The transport read -/

/-- SYNC.STEP itself leaves the straps, the Transport Channel and the pending inputs alone (R151, R163). -/
theorem exec_syncStep_env {r : List Byte} (h : exec (.syncStep r) s = .next t) :
    t.cfg = s.cfg ∧ t.rx = s.rx ∧ t.tx = s.tx ∧ t.txCount = s.txCount ∧ t.inputs = s.inputs := by
  obtain ⟨-, -, hm⟩ := execSyncStep_iff.1 h
  obtain ⟨-, hcfg, hrx, htx, hcount, hin, -⟩ := syncMove_kept hm
  exact ⟨hcfg, hrx, htx, hcount, hin⟩

theorem exec_syncStep_rx {r : List Byte} (h : exec (.syncStep r) s = .next t) : t.rx = s.rx := by
  obtain ⟨-, hrx, -⟩ := exec_syncStep_env h
  exact hrx

/-- A first segment shorter than the read is returned whole and removed (R66). -/
theorem channelRead_short {r : List Byte} {n : Nat} (rest : List (List Byte)) (h : r.length < n) :
    channelRead (r :: rest) n = (r, rest) := if_neg (Nat.not_le.2 h)

/-- The channel can give every response of 0 to `n` bytes and leave any contents behind it: a full read ends inside its
segment, a short one at a timeout (R51, R66). -/
theorem exists_channelRead {r : List Byte} {n : Nat} (seg : List Byte) (rest : List (List Byte)) (h : r.length ≤ n) :
    ∃ rx, channelRead rx n = (r, seg :: rest) := by
  rcases Nat.eq_or_lt_of_le h with hfull | hshort
  · exact ⟨_, channelRead_full hfull⟩
  · exact ⟨_, channelRead_short _ hshort⟩

/-- Settles O31: a presented SYNC.STEP runs with the channel's answer to its read, and the instruction leaves RX alone. -/
theorem stepConsumesExactlyItsResponse : Obligations.StepConsumesExactlyItsResponse := by
  refine ⟨fun s t h => ?_, fun _ _ _ => exec_syncStep_env, fun _ _ seg rest _ => exists_channelRead seg rest⟩
  cases hn : s.readSize with
  | some n =>
    have hexec := (issue_op7_read rfl hn).symm.trans h
    have hrx : t.rx = (channelRead s.rx n).2 := exec_syncStep_rx hexec
    refine ⟨(channelRead s.rx n).1, ?_, ?_, nofun, ?_⟩
    · rw [hrx]
      exact channelRead_flatten s.rx n
    · rintro _ ⟨rfl⟩
      exact channelRead_length s.rx n
    · rw [hrx]
      exact hexec
  | none =>
    have hexec := (issue_op7_noRead rfl hn).symm.trans h
    have hrx : t.rx = s.rx := exec_syncStep_rx hexec
    refine ⟨[], ?_, nofun, fun _ => rfl, ?_⟩
    · rw [hrx]
      rfl
    · rw [hrx]
      exact hexec

/-! ### Encoded frames -/

theorem parseFrame_of_isEncodedFrame {cfg : Config} {f : List Byte} (h : isEncodedFrame cfg f = true) :
    ∃ ff, parseFrame cfg f = .ok ff := by
  cases hp : parseFrame cfg f with
  | ok ff => exact ⟨ff, rfl⟩
  | error e => simp [isEncodedFrame, decodePacket, hp] at h

/-- The check of a whole frame of a registered type is that of its trailer (R54, R116). -/
theorem isEncodedFrame_frameBytes {cfg : Config} {ff : FrameFields}
    (h : (cfg.tt.lookup ff.type).map BitVec.toNat = some ff.payload.length) :
    isEncodedFrame cfg (frameBytes cfg ff) = verify (coveredBytes cfg.magic ff.type ff.ts ff.payload) ff.c0 ff.c1 := by
  simp only [isEncodedFrame, decodePacket_frameBytes h]

/-- A frame whose trailer checks is the encoding of its other fields (R140). -/
theorem frameBytes_eq_encodedFrame {cfg : Config} {ff : FrameFields}
    (h : verify (coveredBytes cfg.magic ff.type ff.ts ff.payload) ff.c0 ff.c1 = true) :
    frameBytes cfg ff = encodedFrame cfg ff.type ff.ts ff.payload := by
  obtain ⟨h0, h1⟩ := (verify_iff _ _ _).1 h
  rw [encodedFrame_eq, ← h0, ← h1]

/-- Settles O18: a byte string that passes parses to fields of the registered length with a checking trailer, so it is their
encoding; the other way round an encoding is a whole frame with the checksum as its trailer. -/
theorem sendableFramesAreEncodedFrames : Obligations.SendableFramesAreEncodedFrames := by
  refine fun cfg f => ⟨fun h => ?_, ?_⟩
  · obtain ⟨ff, hff⟩ := parseFrame_of_isEncodedFrame h
    obtain ⟨rfl, l, hl, hlen⟩ := parseFrame_ok hff
    have hreg : (cfg.tt.lookup ff.type).map BitVec.toNat = some ff.payload.length := by rw [hl, ← hlen]; rfl
    rw [isEncodedFrame_frameBytes hreg] at h
    exact ⟨ff.type, ff.ts, ff.payload, encodePacket_ok.2 ⟨hreg, frameBytes_eq_encodedFrame h⟩⟩
  · rintro ⟨type, ts, payload, h⟩
    obtain ⟨hreg, rfl⟩ := encodePacket_ok.1 h
    rw [encodedFrame_eq, isEncodedFrame_frameBytes hreg]
    exact (verify_iff _ _ _).2 ⟨rfl, rfl⟩

/-- Under a legal table an encoded frame has `FRAME_MIN` to `FRAME_MAX` bytes (R7, R81). -/
theorem encodePacket_length_bounds {cfg : Config} {type : Byte} {ts : Timestamp} {payload f : List Byte}
    (hl : cfg.legal = true) (h : encodePacket cfg type ts payload = .ok f) : frameMin ≤ f.length ∧ f.length ≤ frameMax := by
  obtain ⟨hreg, rfl⟩ := encodePacket_ok.1 h
  obtain ⟨l, hlookup, hlen⟩ := Option.map_eq_some_iff.1 hreg
  rw [encodedFrame_eq]
  exact frameBytes_length_bounds cfg (hlen ▸ lookup_le_of_legal hl hlookup)

/-! ### The transport write -/

theorem scanning_eq_false_iff : s.scanning = false ↔ s.st = .ended ∨ (s.st = .seekMagic ∧ s.fill = 0#6) := by
  simp [State.scanning, imp_iff_not_or]

theorem sendFrame_offers {f : List Byte} (written : Nat) (hl : s.cfg.legal = true) (hs : s.scanning = false)
    (hf : isEncodedFrame s.cfg f = true) :
    sendFrame f written s = .next { s with tx := s.tx ++ [f], txCount := some written } := by
  simp [sendFrame, hl, hs, hf]

theorem sendFrame_scanning (f : List Byte) (written : Nat) (hl : s.cfg.legal = true) (hs : s.scanning = true) :
    sendFrame f written s = .refused .sendDuringScan := by
  simp [sendFrame, hl, hs]

theorem sendFrame_notEncoded {f : List Byte} (written : Nat) (hl : s.cfg.legal = true) (hs : s.scanning = false)
    (hf : isEncodedFrame s.cfg f = false) : sendFrame f written s = .refused .notAnEncodedFrame := by
  simp [sendFrame, hl, hs, hf]

/-- Settles O59: the three answers of `sendFrame` under a legal table; the frame passes the check by O18. -/
theorem sendOffersEncodedFrameOutsideScan : Obligations.SendOffersEncodedFrameOutsideScan := by
  refine ⟨fun s rest type ts payload f written hl hin henc hidle => ?_, fun s rest f written hl hin hbusy => ?_,
    fun s rest f written hl hin hf hidle => ?_⟩
  · have hf : isEncodedFrame s.cfg f = true := (sendableFramesAreEncodedFrames s.cfg f).2 ⟨type, ts, payload, henc⟩
    obtain ⟨hmin, hmax⟩ := encodePacket_length_bounds hl henc
    exact ⟨_, (step_serves hin).trans (sendFrame_offers written hl (scanning_eq_false_iff.2 hidle) hf), rfl, hmin, hmax,
      rfl, ⟨rfl, rfl, rfl, rfl, rfl, rfl, rfl⟩, rfl, rfl⟩
  · have hs : s.scanning = true := by
      rw [← Bool.not_eq_false, scanning_eq_false_iff]
      exact hbusy
    exact (step_serves hin).trans (sendFrame_scanning f written hl hs)
  · exact (step_serves hin).trans (sendFrame_notEncoded written hl (scanning_eq_false_iff.2 hidle) hf)

end Sys2Proof.Machine
end

section
/-!
PROOFS. The presentation of an instruction and its decoding are inverse (spec/30_encoding.md R80 to R94), and what a presented
data format does (R80, R89; log 11).
-/

namespace Sys2Proof.Machine

variable {s : State} {rest : List Input}

/-! ### From an instruction to its presentation and back -/

/-- A whole frame is decoded from its own bytes (R80, R88). -/
theorem decodeWire8_frameBytes {cfg : Config} {ff : FrameFields}
    (h : (cfg.tt.lookup ff.type).map BitVec.toNat = some ff.payload.length) :
    decodeWire8 cfg (frameBytes cfg ff) = .ok (.frame ff.type ff.ts ff.payload ff.c0 ff.c1) := by
  obtain ⟨l, hl, hlen⟩ := Option.map_eq_some_iff.1 h
  simp only [decodeWire8, parseFrame_frameBytes hl hlen]

theorem decodeWire16_frameBytes {cfg : Config} {ff : FrameFields}
    (h : (cfg.tt.lookup ff.type).map BitVec.toNat = some ff.payload.length) (htype : ff.type = 0x00#8) :
    decodeWire16 cfg (frameBytes cfg ff) = .ok (.frameImageChunk ff.ts ff.payload ff.c0 ff.c1) := by
  obtain ⟨l, hl, hlen⟩ := Option.map_eq_some_iff.1 h
  simp only [decodeWire16, parseFrame_frameBytes hl hlen, htype, if_true]

/-- Settles O54: a bounded operand passes the decoder's bound by well-formedness, a frame parses to its fields, a colour word
gives its fields back, and every other port reads back as it was driven. -/
theorem decodeOfEncodeGivesInstructionBack : Obligations.DecodeOfEncodeGivesInstructionBack := by
  intro cfg i h
  cases i with
  | pktEncode | pktDecode | syncStep | pixPack | pixUnpack => exact if_pos (of_decide_eq_true h)
  | frame => exact decodeWire8_frameBytes (of_decide_eq_true h)
  | frameImageChunk => exact decodeWire16_frameBytes (of_decide_eq_true h) rfl
  | pixel565 r5 g6 b5 => simp only [encode, decode, field5R_pack565, field6G_pack565, field5B_pack565]
  | crcInit | crcUpdate | crcCompute | crcVerify | syncStart | c565Enc | c565Dec | reservedC | reservedD | reservedE
  | reservedF => rfl

/-! ### From a presentation to an instruction and back -/

theorem of_guard_ok {p : Prop} [Decidable p] {i j : Instr} {e : DecodeError}
    (h : (if p then .ok i else .error e : Except DecodeError Instr) = .ok j) : p ∧ i = j := by
  split at h
  · exact ⟨‹_›, Except.ok.inj h⟩
  · cases h

/-- What a command port decodes to fits its ports and is encoded with the same code (R93, R94). -/
theorem decodeCommand_ok_wf {c : CommandPort} {i : Instr} (cfg : Config) (h : decodeCommand c = .ok i) :
    i.wf cfg = true ∧ ∃ c', encode cfg i = .op4 c' ∧ c'.op = c.op := by
  have hop : ∀ {v : BitVec 4}, c.op.toNat = v.toNat → v = c.op := fun h => BitVec.eq_of_toNat_eq h.symm
  unfold decodeCommand at h
  split at h
  case h_5 hk | h_6 hk | h_8 hk | h_11 hk | h_12 hk =>
    obtain ⟨hlen, rfl⟩ := of_guard_ok h
    exact ⟨decide_eq_true hlen, _, rfl, hop hk⟩
  case h_16 =>
    cases h
    have hlt := c.op.isLt
    have hk : c.op.toNat = 15 := by simp only [imp_false] at *; omega
    exact ⟨rfl, _, rfl, hop hk⟩
  all_goals
    rename_i hk
    cases h
    exact ⟨rfl, _, rfl, hop hk⟩

/-- Bytes that decode as FRAME are the bytes of that frame, of the length its type fixes (R80, R81). -/
theorem decodeWire8_ok {cfg : Config} {f : List Byte} {i : Instr} (h : decodeWire8 cfg f = .ok i) :
    i.wf cfg = true ∧ encode cfg i = .wire8 f := by
  unfold decodeWire8 at h
  split at h
  · cases h
  · rename_i ff hff
    obtain ⟨rfl, l, hl, hlen⟩ := parseFrame_ok hff
    cases h
    exact ⟨decide_eq_true (by rw [hl, ← hlen]; rfl), rfl⟩

/-- Bytes that decode as FRAME.IMAGE_CHUNK are the bytes of that frame, of type `0x00` (R84). -/
theorem decodeWire16_ok {cfg : Config} {f : List Byte} {i : Instr} (h : decodeWire16 cfg f = .ok i) :
    i.wf cfg = true ∧ encode cfg i = .wire16 f := by
  unfold decodeWire16 at h
  split at h
  · cases h
  · rename_i ff hff
    obtain ⟨rfl, l, hl, hlen⟩ := parseFrame_ok hff
    split at h
    · rename_i htype
      cases h
      exact ⟨decide_eq_true (by rw [← htype, hl, ← hlen]; rfl), by rw [encode, ← htype]⟩
    · cases h

/-- Settles O55, format by format. -/
theorem decodedInstructionIsWellFormed : Obligations.DecodedInstructionIsWellFormed := by
  intro cfg p i h
  cases p with
  | op4 c => exact decodeCommand_ok_wf cfg h
  | wire8 f => exact decodeWire8_ok h
  | wire16 f => exact decodeWire16_ok h
  | pix16 w =>
    cases h
    exact ⟨rfl, congrArg Presented.pix16 (pack565_fields w)⟩

/-- Settles O56: each of the seven words is decoded by evaluation. -/
theorem writtenWordsDecode : Obligations.WrittenWordsDecode := ⟨rfl, rfl, rfl, rfl, rfl, rfl, rfl⟩

/-- Only SYNC.STEP is presented with the code `0x7` (R93). -/
theorem op_ne_of_not_syncStep {cfg : Config} {i : Instr} (h : ∀ r, i ≠ .syncStep r) (c : CommandPort)
    (hc : encode cfg i = .op4 c) : c.op ≠ 0x7#4 := by
  cases i with
  | syncStep r => exact absurd rfl (h r)
  | frame | frameImageChunk | pixel565 => cases hc
  | crcInit | crcUpdate | crcCompute | crcVerify | pktEncode | pktDecode | syncStart | c565Enc | c565Dec | pixPack
  | pixUnpack | reservedC | reservedD | reservedE | reservedF => cases hc; simp

/-- A step whose oldest input is the presentation of a well-formed instruction other than SYNC.STEP runs that instruction. -/
theorem step_encoded {i : Instr} (hin : s.inputs = .present (encode s.cfg i) :: rest) (hwf : i.wf s.cfg = true)
    (hi : ∀ r, i ≠ .syncStep r) : step s = exec i { s with inputs := rest } :=
  (step_present hin).trans (issue_decoded (op_ne_of_not_syncStep hi) (decodeOfEncodeGivesInstructionBack s.cfg i hwf))

/-! ### The data formats -/

/-- Settles O42: both bytes by the packed word as a number. -/
theorem packedColourWordIsSerializedBigEndian : Obligations.PackedColourWordIsSerializedBigEndian := by
  intro s r5 g6 b5
  have hr := r5.isLt
  have hg := g6.isLt
  have hb := b5.isLt
  refine ⟨_, BitVec.ofNat 8 ((pack565 r5 g6 b5).toNat / 256), BitVec.ofNat 8 (pack565 r5 g6 b5).toNat, rfl,
    congrArg Result.bytes (be16_toNat _), ?_, ?_, ⟨rfl, complete_syncKept s _⟩, complete_envKept s _, rfl, rfl, rfl⟩
  · rw [BitVec.toNat_ofNat, pack565_toNat]
    omega
  · rw [BitVec.toNat_ofNat, pack565_toNat]
    omega

/-- A wire frame under a legal table arrives behind what RX holds, and nothing else changes (R80, R50 (a)). -/
theorem execFrame_arrives (type : Byte) (ts : Timestamp) (payload : List Byte) (c0 c1 : Byte)
    (hl : s.cfg.legal = true) :
    ∃ t, execFrame type ts payload c0 c1 s = .next t ∧
      t.rx.flatten = s.rx.flatten ++ ([s.cfg.magic, type, ts.b0, ts.b1, ts.b2, ts.b3] ++ payload ++ [c0, c1]) ∧
      CoreKept s t ∧ t = { s with rx := t.rx } :=
  ⟨_, execFrame_next.2 ⟨hl, rfl⟩, channelArrive_flatten s.rx _, arrive_coreKept s _, rfl⟩

/-- Settles O47: FRAME.IMAGE_CHUNK is FRAME of type `0x00`. -/
theorem presentedFrameArrivesOnRx : Obligations.PresentedFrameArrivesOnRx :=
  ⟨fun _ type ts payload c0 c1 hl => execFrame_arrives type ts payload c0 c1 hl,
    fun _ ts payload c0 c1 hl => execFrame_arrives 0x00#8 ts payload c0 c1 hl⟩

/-! ### CRC.COMPUTE as a stream of operations -/

theorem step_crcInit (hin : s.inputs = .present (encode s.cfg .crcInit) :: rest) :
    step s = .next ({ s with crc := crcInitial, inputs := rest }.complete .noResult) :=
  step_encoded hin rfl nofun

theorem step_crcUpdate {b : Byte} (hin : s.inputs = .present (encode s.cfg (.crcUpdate b)) :: rest) :
    step s = .next ({ s with crc := crcByteStep s.crc b, inputs := rest }.complete .noResult) :=
  step_encoded hin rfl nofun

/-- A stream of CRC.UPDATEs runs `crc` over its bytes (R114); the configuration has no part in how they are presented. -/
theorem run_crcUpdates (cfg : Config) (str : List Byte)
    (hin : s.inputs = str.map (fun b => .present (encode cfg (.crcUpdate b))) ++ rest) :
    ∃ t, Host.Core.run Sys2Proof.core str.length s = .next t ∧ t.crc = crcRun s.crc str ∧ t.inputs = rest ∧
      SyncKept s t := by
  induction str generalizing s with
  | nil => exact ⟨s, rfl, rfl, hin, .refl s⟩
  | cons b str ih =>
    obtain ⟨t, hrun, hcrc, hrest, hk⟩ :=
      ih (s := { s with crc := crcByteStep s.crc b, inputs := _ }.complete .noResult) rfl
    exact ⟨t, (run_succ (step_crcUpdate hin)).trans hrun, hcrc, hrest, hk.st, hk.phase, hk.fb, hk.fill, hk.ftype, hk.flen⟩

/-- Settles O10: CRC.INIT leaves the initial register, from which the updates run as CRC.COMPUTE's fold does. -/
theorem crcStreamEqualsCompute : Obligations.CrcStreamEqualsCompute := by
  intro s str rest hin
  obtain ⟨t, hrun, hcrc, hrest, hk⟩ := run_crcUpdates s.cfg str
    (s := { s with crc := crcInitial, inputs := _ }.complete .noResult) (rest := rest) rfl
  refine ⟨t, ?_, hcrc, hrest, hk.st, hk.phase, hk.fb, hk.fill, hk.ftype, hk.flen⟩
  rw [Nat.add_comm]
  exact (run_succ (step_crcInit hin)).trans hrun

end Sys2Proof.Machine
end

section
/-!
PROOFS. The scan of one whole frame from `SEEK_MAGIC` to its Emit event (spec/42_sync.md R153 to R158), and of a frame
presented on the wire (spec/30_encoding.md R80, R82).
-/

namespace Sys2Proof.Machine

variable {s s₀ t u : State}

/-! ### Reading the frame buffer back -/

/-- The other direction of `Memory.readBytes_some`. -/
theorem Memory.readBytes_eq_of_getElem {m : Memory} {a : Nat} {f : List Byte}
    (h : ∀ i, i < f.length → m.read (a + i) = f[i]?) : m.readBytes a f.length = some f := by
  induction f generalizing a with
  | nil => rfl
  | cons b f ih =>
    have hb : m.read a = some b := h 0 (Nat.zero_lt_succ _)
    have hf : m.readBytes (a + 1) f.length = some f := ih fun i hi => by
      rw [Nat.add_right_comm, Nat.add_assoc, h (i + 1) (Nat.succ_lt_succ hi), List.getElem?_cons_succ]
    simp only [List.length_cons, Memory.readBytes, hb, hf]

/-- After a store behind what was read so far, that and the stored bytes read back (R24, R153 to R157). -/
theorem Memory.readBytes_store {m : Memory} {f : List Byte} (r : List Byte) (h : m.readBytes 0 f.length = some f) :
    ((m.writeBytes f.length r).below (f.length + r.length)).readBytes 0 (f ++ r).length = some (f ++ r) := by
  obtain ⟨-, hf⟩ := Memory.readBytes_some h
  refine Memory.readBytes_eq_of_getElem fun i hi => ?_
  rw [List.length_append] at hi
  rw [Nat.zero_add, read_store]
  by_cases hi' : i < f.length
  · rw [if_pos hi', List.getElem?_append_left hi', ← hf i hi', Nat.zero_add]
  · rw [if_neg hi', if_pos hi, List.getElem?_append_right (Nat.not_lt.1 hi')]

/-! ### SYNC.STEPs without an event -/

/-- SYNC.STEP leads from `s` to `t`, whatever inputs are pending. -/
def SyncStepsTo (s t : State) : Prop :=
  ∀ rest, issue syncStepPort { s with inputs := rest } = .next { t with inputs := rest }

/-- `n` SYNC.STEPs lead from one state to the other and none of them produces an event. -/
inductive QuietSteps : Nat → State → State → Prop where
  | refl (s : State) : QuietSteps 0 s s
  | step {n : Nat} {s t u : State} (h : SyncStepsTo s t) (hev : t.event = none) (hn : QuietSteps n t u) :
      QuietSteps (n + 1) s u

variable {n m : Nat}

theorem QuietSteps.trans (h : QuietSteps n s t) (h' : QuietSteps m t u) : QuietSteps (m + n) s u := by
  induction h with
  | refl => exact h'
  | step h hev _ ih => exact .step h hev (ih h')

theorem step_syncStepsTo {rest : List Input} (h : SyncStepsTo s t) :
    step { s with inputs := .present syncStepPort :: rest } = .next { t with inputs := rest } :=
  (step_present rfl).trans (h rest)

/-- Pending SYNC.STEPs are served one by one (R151; log 1). -/
theorem run_quietSteps {rest : List Input} (h : QuietSteps n s t) :
    Host.Core.run Sys2Proof.core (m + n) { s with inputs := syncSteps (m + n) ++ rest } =
      Host.Core.run Sys2Proof.core m { t with inputs := syncSteps m ++ rest } := by
  induction h with
  | refl => rfl
  | step h _ _ ih => exact (run_succ (step_syncStepsTo h)).trans ih

/-! ### A frame in progress -/

/-- A frame in progress in a scan that began in `s₀`: the bytes `f` are in the frame buffer, and RX goes on with `left` and
then the segments `later`. -/
structure Midway (s₀ : State) (f left : List Byte) (later : List (List Byte)) (s : State) : Prop where
  cfg : s.cfg = s₀.cfg
  crc : s.crc = s₀.crc
  events : s.events = s₀.events
  fill : s.fill = BitVec.ofNat 6 f.length
  buffered : s.fb.readBytes 0 f.length = some f
  rx : s.rx = left :: later

variable {f left r : List Byte} {later : List (List Byte)}

/-- With the invariant a scan begins with nothing buffered. -/
theorem midway_nil (h : s.Inv) (hst : s.st = .seekMagic) (hrx : s.rx = left :: later) : Midway s [] left later s :=
  ⟨rfl, rfl, rfl, (control_idle (.inl hst)).1 h.controlled, rfl, hrx⟩

/-- A full read whose move stores it behind the bytes of `f` takes the scan on by those bytes; the reads of a frame differ
only in the registers they set. (`t` is the state the move leads to, as a function of the pending inputs, which no move
looks at.) -/
theorem Midway.reads {a : Nat} {t : List Input → State} (h : Midway s₀ f (r ++ left) later s) (hl : s₀.cfg.legal = true)
    (hn : s.readSize = some r.length)
    (hm : ∀ rest, SyncMove { s with inputs := rest, rx := left :: later } r (t rest))
    (ht : ∀ rest, t rest = { t [] with inputs := rest }) (hev : (t []).event = none) (ha : f.length = a)
    (hfb : (t []).fb = (s.stored a r).fb) (hfill : (t []).fill = (s.stored a r).fill) :
    QuietSteps 1 s (t []) ∧ Midway s₀ (f ++ r) left later (t []) := by
  obtain ⟨hcrc, hcfg, hrx, -, -, -, -, hevents⟩ := syncMove_kept (hm [])
  subst ha
  refine ⟨.step (fun rest => ?_) hev (.refl _),
    ⟨hcfg.trans h.cfg, hcrc.trans h.crc, hevents.trans ?_, ?_, ?_, hrx⟩⟩
  · rw [← ht]
    exact issue_syncStep_read (s := { s with inputs := rest }) (h.cfg ▸ hl) hn
      ((congrArg (channelRead · _) h.rx).trans (channelRead_full rfl)) (readSize_le_portMax hn) (hm rest)
  · simp [hev, h.events]
  · rw [hfill, List.length_append]; rfl
  · rw [hfb]
    exact Memory.readBytes_store r h.buffered

/-- R153: the magic byte begins a frame. -/
theorem Midway.reads_magic (h : Midway s₀ [] (s₀.cfg.magic :: left) later s) (hl : s₀.cfg.legal = true)
    (hst : s.st = .seekMagic) :
    ∃ t, QuietSteps 1 s t ∧ Midway s₀ [s₀.cfg.magic] left later t ∧ t.st = .readType := by
  obtain ⟨hq, hmid⟩ := h.reads (r := [s₀.cfg.magic]) hl (readSize_eq_some_iff.2 (.inl ⟨.inl hst, rfl⟩))
    (fun _ => .magicFound _ [] hst (congrArg Config.magic h.cfg.symm)) (fun _ => rfl) rfl rfl rfl rfl
  exact ⟨_, hq, hmid, rfl⟩

/-- R154: a registered type is latched with its length. -/
theorem Midway.reads_type {b c : Byte} {l : Len} (h : Midway s₀ [b] (c :: left) later s) (hl : s₀.cfg.legal = true)
    (hst : s.st = .readType) (hc : s₀.cfg.tt.lookup c = some l) :
    ∃ t, QuietSteps 1 s t ∧ Midway s₀ [b, c] left later t ∧ t.st = .readBody ∧ t.phase = .ts ∧ t.flen = l := by
  obtain ⟨hq, hmid⟩ := h.reads (r := [c]) hl (readSize_eq_some_iff.2 (.inl ⟨.inr hst, rfl⟩))
    (fun _ => .typeKnown _ [] l hst (h.cfg ▸ hc)) (fun _ => rfl) rfl rfl rfl rfl
  exact ⟨_, hq, hmid, rfl, rfl, rfl⟩

/-- R155: the timestamp; an empty payload is complete with it. -/
theorem Midway.reads_timestamp {ts : Timestamp} (h : Midway s₀ f (ts.toList ++ left) later s) (hl : s₀.cfg.legal = true)
    (hst : s.st = .readBody) (hph : s.phase = .ts) (hf : f.length = 2) :
    ∃ t, QuietSteps 1 s t ∧ Midway s₀ (f ++ ts.toList) left later t ∧ t.st = .readBody ∧
      t.phase = (if s.flen = 0#6 then .tr else .pl) ∧ t.flen = s.flen := by
  obtain ⟨hq, hmid⟩ := h.reads hl (readSize_eq_some_iff.2 (.inr ⟨hst, .inl ⟨hph, rfl⟩⟩))
    (fun _ => .tsRead _ hst hph (Nat.le_refl 4) (by rw [ts.toList_length]; decide)) (fun _ => rfl) rfl hf rfl rfl
  exact ⟨_, hq, hmid, hst, rfl, rfl⟩

/-- R156: a payload of the latched length. -/
theorem Midway.reads_payload {payload : List Byte} (h : Midway s₀ f (payload ++ left) later s) (hl : s₀.cfg.legal = true)
    (hst : s.st = .readBody) (hph : s.phase = .pl) (hf : f.length = 6) (hlen : s.flen.toNat = payload.length)
    (hpos : s.flen ≠ 0#6) (hmax : payload.length ≤ 48) :
    ∃ t, QuietSteps 1 s t ∧ Midway s₀ (f ++ payload) left later t ∧ t.st = .readBody ∧ t.phase = .tr ∧
      t.flen = s.flen := by
  have hfit : 6 + payload.length ≤ frameMax := Nat.le_trans (Nat.add_le_add_left hmax 6) (by decide)
  obtain ⟨hq, hmid⟩ := h.reads hl (readSize_eq_some_iff.2 (.inr ⟨hst, .inr (.inl ⟨hph, hpos, hlen.symm⟩)⟩))
    (fun _ => .plRead _ hst hph hpos (Nat.le_of_eq hlen) hfit) (fun _ => rfl) rfl hf rfl rfl
  exact ⟨_, hq, hmid, hst, rfl, rfl⟩

/-- R157: the trailer completes the frame. -/
theorem Midway.reads_trailer {c0 c1 : Byte} (h : Midway s₀ f ([c0, c1] ++ left) later s) (hl : s₀.cfg.legal = true)
    (hst : s.st = .readBody) (hph : s.phase = .tr) (hf : f.length = 6 + s.flen.toNat) (hmax : s.flen.toNat ≤ 48) :
    ∃ t, QuietSteps 1 s t ∧ Midway s₀ (f ++ [c0, c1]) left later t ∧ t.st = .emit := by
  have hfit : 6 + s.flen.toNat + [c0, c1].length ≤ frameMax := Nat.add_le_add_right (Nat.add_le_add_left hmax 6) 2
  obtain ⟨hq, hmid⟩ := h.reads (r := [c0, c1]) hl (readSize_eq_some_iff.2 (.inr ⟨hst, .inr (.inr ⟨hph, rfl⟩)⟩))
    (fun _ => .trRead _ hst hph (Nat.le_refl 2) hfit) (fun _ => rfl) rfl hf rfl rfl
  exact ⟨_, hq, hmid, rfl⟩

/-- R155, R156: timestamp and payload, one step for an empty payload and two for another. -/
theorem Midway.reads_body {ts : Timestamp} {payload : List Byte}
    (h : Midway s₀ f (ts.toList ++ (payload ++ left)) later s) (hl : s₀.cfg.legal = true) (hst : s.st = .readBody) (hph : s.phase = .ts) (hf : f.length = 2)
    (hlen : s.flen.toNat = payload.length) (hmax : payload.length ≤ 48) :
    ∃ t, QuietSteps (if payload = [] then 1 else 2) s t ∧ Midway s₀ (f ++ ts.toList ++ payload) left later t ∧
      t.st = .readBody ∧ t.phase = .tr ∧ t.flen = s.flen := by
  obtain ⟨t, hq, hmid, hst', hph', hlen'⟩ := h.reads_timestamp hl hst hph hf
  by_cases hp : payload = []
  · subst hp
    have h0 : s.flen = 0#6 := BitVec.eq_of_toNat_eq hlen
    rw [if_pos h0] at hph'
    rw [List.append_nil]
    exact ⟨t, hq, hmid, hst', hph', hlen'⟩
  · have h0 : s.flen ≠ 0#6 := fun h0 => hp (List.length_eq_zero_iff.1 (by rw [← hlen, h0]; rfl))
    rw [if_neg h0] at hph'
    obtain ⟨u, hq', hmid', hst'', hph'', hlen''⟩ :=
      hmid.reads_payload hl hst' hph' (by simp [hf]) (hlen' ▸ hlen) (hlen' ▸ h0) hmax
    rw [if_neg hp]
    exact ⟨u, hq.trans hq', hmid', hst'', hph'', hlen''.trans hlen'⟩

/-! ### The Emit event -/

/-- What a scan that began in `s₀` has done when its first event is the Emit of `p`: RX is left at `rx`. -/
structure Emitted (s₀ : State) (p : Packet) (rx : List (List Byte)) (t : State) : Prop where
  event : t.event = some (.emit p)
  events : t.events = s₀.events ++ [.emit p]
  rx : t.rx = rx
  st : t.st = .seekMagic
  fill : t.fill = 0#6
  crc : t.crc = s₀.crc

/-- R158: the buffered frame is decoded and emitted. -/
theorem Midway.emits {p : Packet} (h : Midway s₀ f left later s) (hl : s₀.cfg.legal = true) (hst : s.st = .emit)
    (hlen : f.length < 64) (hp : decodePacket s₀.cfg f = .ok p) :
    ∃ t, SyncStepsTo s t ∧ Emitted s₀ p (left :: later) t := by
  have hn : s.readSize = none := by simp [State.readSize, hst]
  have hbuf : s.fb.readBytes 0 s.fill.toNat = some f := by
    rw [h.fill, toNat_fill hlen]
    exact h.buffered
  refine ⟨({ s with st := .seekMagic }.setFill 0).produce none (some (.emit p)) (.packet p), fun rest => ?_,
    ⟨rfl, congrArg (· ++ [Event.emit p]) h.events, h.rx, rfl, rfl, h.crc⟩⟩
  exact issue_syncStep_noRead (s := { s with inputs := rest }) (h.cfg ▸ hl) hn (.emitted [] f p hst hbuf (h.cfg ▸ hp))

/-- A whole frame of a registered type at the front of RX is scanned, without an event before it, and emitted with its
fields (R153 to R158, R165). -/
theorem frame_scanned {ff : FrameFields} (h : s.Inv) (hst : s.st = .seekMagic)
    (hrx : s.rx = (frameBytes s.cfg ff ++ left) :: later)
    (hreg : (s.cfg.tt.lookup ff.type).map BitVec.toNat = some ff.payload.length) :
    ∃ u t, QuietSteps (if ff.payload = [] then 4 else 5) s u ∧ SyncStepsTo u t ∧
      Emitted s ⟨ff.type, ff.ts, ff.payload, verify (coveredBytes s.cfg.magic ff.type ff.ts ff.payload) ff.c0 ff.c1⟩
        (left :: later) t := by
  have hl := h.cfgLegal
  obtain ⟨l, hlookup, hlen⟩ := Option.map_eq_some_iff.1 hreg
  have hmax : ff.payload.length ≤ 48 := hlen ▸ lookup_le_of_legal hl hlookup
  have hparts : frameBytes s.cfg ff ++ left =
      s.cfg.magic :: ff.type :: (ff.ts.toList ++ (ff.payload ++ ([ff.c0, ff.c1] ++ left))) := by
    simp [frameBytes]
  rw [hparts] at hrx
  obtain ⟨s₁, hq₁, hm₁, hst₁⟩ := (midway_nil h hst hrx).reads_magic hl hst
  obtain ⟨s₂, hq₂, hm₂, hst₂, hph₂, hlen₂⟩ := hm₁.reads_type hl hst₁ hlookup
  obtain ⟨s₃, hq₃, hm₃, hst₃, hph₃, hlen₃⟩ := hm₂.reads_body hl hst₂ hph₂ rfl (hlen₂ ▸ hlen) hmax
  have hflen : s₃.flen.toNat = ff.payload.length := by rw [hlen₃, hlen₂, hlen]
  obtain ⟨s₄, hq₄, hm₄, hst₄⟩ := hm₃.reads_trailer hl hst₃ hph₃ (by simp [hflen]; omega) (hflen ▸ hmax)
  obtain ⟨t, ht, hemit⟩ := hm₄.emits hl hst₄ (by simp; omega) (decodePacket_frameBytes hreg)
  refine ⟨s₄, t, ?_, ht, hemit⟩
  have hcount : 1 + ((if ff.payload = [] then 1 else 2) + (1 + 1)) = if ff.payload = [] then 4 else 5 := by
    split <;> rfl
  exact hcount ▸ ((hq₁.trans hq₂).trans hq₃).trans hq₄

/-- Settles O35: after the first step the frame's bytes are alone on RX, and the SYNC.STEPs scan it to its Emit. -/
theorem presentedFrameIsScannedAndEmitted : Obligations.PresentedFrameIsScannedAndEmitted := by
  intro s type ts payload c0 c1 rest h hst hrx hwf hin
  have harrive := (step_encoded hin hwf nofun).trans (execFrame_next.2 ⟨h.cfgLegal, rfl⟩)
  have hinv : (s.arrive (frameBytes s.cfg ⟨type, ts, payload, c0, c1⟩)).Inv :=
    inv_of_kept h (arrive_coreKept s _).sync rfl
  have hrx' : channelArrive s.rx (frameBytes s.cfg ⟨type, ts, payload, c0, c1⟩) =
      [frameBytes s.cfg ⟨type, ts, payload, c0, c1⟩ ++ []] := by
    rw [hrx, List.append_nil]; rfl
  obtain ⟨u, t, hquiet, hlast, hemit⟩ := frame_scanned hinv hst hrx' (of_decide_eq_true hwf)
  refine ⟨{ t with inputs := rest }, ?_, hemit.event, congrArg List.flatten hemit.rx, hemit.st, hemit.fill, hemit.crc,
    rfl⟩
  have hcount : (if payload = [] then 5 else 6) = 1 + if payload = [] then 4 else 5 := by split <;> rfl
  rw [hcount] at harrive ⊢
  rw [Nat.add_comm]
  exact (run_succ harrive).trans ((run_quietSteps hquiet).trans (run_succ (step_syncStepsTo hlast)))

end Sys2Proof.Machine
end

section
/-!
PROOFS. The CRC Engine: its bit and byte step, its four operations, and what its checksum detects (spec/40_crc.md R111 to
R121).
-/

namespace Sys2Proof.Machine

/-! ### The bit step and the byte step -/

theorem crcBitSteps_eq_iterate (n : Nat) (c : Half) : crcBitSteps n c = crcBitStep^[n] c := by
  induction n generalizing c with
  | zero => rfl
  | succ n ih => exact ih _

theorem crcBitSteps_eq_zero_iff {n : Nat} {c : Half} : crcBitSteps n c = 0#16 ↔ c = 0#16 := by
  refine ⟨crcBitSteps_eq_zero, ?_⟩
  rintro rfl
  have h := crcBitSteps_xor n 0#16 0#16
  rwa [BitVec.xor_self, BitVec.xor_self] at h

theorem extractLsb'_fromBe16_high (b0 b1 : Byte) : (fromBe16 b0 b1).extractLsb' 8 8 = b0 :=
  (List.cons.inj (be16_fromBe16 b0 b1)).1

theorem extractLsb'_fromBe16_low (b0 b1 : Byte) : (fromBe16 b0 b1).extractLsb' 0 8 = b1 :=
  (List.cons.inj (List.cons.inj (be16_fromBe16 b0 b1)).2).1

/-- The byte step with the byte placed as R112 writes it, above a zero byte. -/
theorem crcByteStep_eq (c : Half) (b : Byte) : crcByteStep c b = crcBitSteps 8 (c ^^^ fromBe16 b 0#8) := by
  simp [crcByteStep, fromBe16]

theorem crcByteStep_zero_ne {e : Byte} (he : e ≠ 0#8) : crcByteStep 0#16 e ≠ 0#16 := by
  rw [crcByteStep_eq, BitVec.zero_xor, Ne, crcBitSteps_eq_zero_iff]
  intro h
  exact he (by rw [← extractLsb'_fromBe16_high e 0#8, h]; rfl)

/-- Settles O1: the 17th bit of the shift is the one the mask drops. -/
theorem crcBitStepShiftsThenXorsPolynomial : Obligations.CrcBitStepShiftsThenXorsPolynomial := by
  refine ⟨fun c => ?_, by decide, by decide⟩
  have hshift : (c.setWidth 17 <<< 1).setWidth 16 = c <<< 1 := by
    rw [BitVec.setWidth_shiftLeft_of_le (by decide), BitVec.setWidth_setWidth_of_le _ (by decide), BitVec.setWidth_eq]
  rw [BitVec.setWidth_xor, hshift]
  rfl

/-- Settles O2: `c0` is the register with the byte above a zero byte XORed in. -/
theorem crcByteStepConsumesByteTopBitFirst : Obligations.CrcByteStepConsumesByteTopBitFirst := by
  refine ⟨fun c b => ⟨c ^^^ fromBe16 b 0#8, ?_, ?_, ?_, ?_⟩, by decide, by decide⟩
  · rw [BitVec.extractLsb'_xor, extractLsb'_fromBe16_high]
  · rw [BitVec.extractLsb'_xor, extractLsb'_fromBe16_low, BitVec.xor_zero]
  · simp [fromBe16]
  · rw [crcByteStep_eq, crcBitSteps_eq_iterate]

/-! ### The four operations -/

/-- A CRC operation writes `crc` and its result, raises nothing, and leaves the rest of the core and the environment alone
(R113 to R116). -/
theorem crcWritten_kept (s : State) (c : Half) (r : Result) :
    SyncKept s ({ s with crc := c }.complete r) ∧ EnvKept s ({ s with crc := c }.complete r) ∧
      ({ s with crc := c }.complete r).err = none :=
  ⟨(OpEnd.completed c r).syncKept, ⟨rfl, rfl, rfl, rfl, rfl, rfl⟩, rfl⟩

/-- Settles O3: issued again, CRC.INIT writes what it wrote before. -/
theorem crcInitSetsInitialRegister : Obligations.CrcInitSetsInitialRegister := by
  refine ⟨rfl, fun s => ⟨_, rfl, rfl, ?_⟩⟩
  obtain ⟨hsync, henv, herr⟩ := crcWritten_kept s crcInitial .noResult
  exact ⟨hsync, henv, herr, rfl⟩

/-- Settles O4: what the operation writes, and R114's example by evaluation of its two byte steps. -/
theorem crcUpdateStepsRegisterByByte : Obligations.CrcUpdateStepsRegisterByByte := by
  refine ⟨fun _ => rfl, fun s b => ⟨_, rfl, rfl, crcWritten_kept s _ _⟩, fun s hs => ⟨_, _, rfl, ?_, rfl, ?_⟩⟩
  · show crcByteStep s.crc 0x14#8 = 0xB345#16
    rw [hs]
    decide
  · show crcByteStep (crcByteStep s.crc 0x14#8) 0x00#8 = 0xD2B8#16
    rw [hs]
    decide

theorem crc16_eq_foldl (str : List Byte) : crc16 str = str.foldl crcByteStep 0xFFFF#16 :=
  crcRun_foldl crcInitial str

/-- Settles O5: the register runs as the fold does; PKT.ENCODE, PKT.DECODE and SYNC.STEP have nothing to do with `crc`. -/
theorem crcComputeFoldsByteSteps : Obligations.CrcComputeFoldsByteSteps := by
  refine ⟨fun _ => rfl, fun s str => ⟨_, rfl, crc16_eq_foldl str, congrArg Result.half (crc16_eq_foldl str),
    crcWritten_kept s _ _⟩, crc16_eq_foldl, rfl, fun s t type ts payload h => ?_, fun s t f h => ?_, fun s t r h => ?_,
    by decide +kernel⟩
  · exact (crcApart_pktEncode type ts payload s t h).1
  · exact (crcApart_pktDecode f s t h).1
  · exact (crcApart_syncStep r s t h).1

/-- The trailer check as one comparison of the checksum with the trailer read big-endian (R116). -/
theorem verify_iff_crc16 {b : List Byte} {t0 t1 : Byte} : verify b t0 t1 = true ↔ crc16 b = fromBe16 t0 t1 := by
  rw [verify, decide_eq_true_eq, be16_eq_iff]

/-- Settles O6: the bit is the comparison of both bytes; both byte orders of a trailer that verify are equal byte by byte. -/
theorem crcVerifyComparesBigEndianTrailer : Obligations.CrcVerifyComparesBigEndianTrailer := by
  refine ⟨fun _ _ _ => rfl, fun s str t0 t1 => ⟨_, rfl, rfl, ?_, crcWritten_kept s _ _⟩, fun t0 t1 => ?_,
    fun str t0 t1 h h' => ?_, by decide +kernel, by decide +kernel⟩
  · exact congrArg Result.bit (Bool.eq_iff_iff.2 ((verify_iff str t0 t1).trans decide_eq_true_iff.symm))
  · exact verify_iff [] t0 t1
  · exact ((verify_iff str t0 t1).1 h).1.trans ((verify_iff str t1 t0).1 h').1.symm

/-- Settles O7: the two bytes of the trailer are the checksum's own. -/
theorem crcVerifyAcceptsOwnChecksum : Obligations.CrcVerifyAcceptsOwnChecksum :=
  fun _ b => ⟨_, rfl, congrArg Result.bit ((verify_iff b _ _).2 ⟨rfl, rfl⟩)⟩

/-! ### Corruption of one bit -/

/-- Two byte strings that differ in one byte take a register to different values: the difference that byte makes is lost by
no later step. -/
theorem crcRun_set_ne (c : Half) {e : Byte} (he : e ≠ 0#8) {b : List Byte} {i : Nat} (hi : i < b.length) :
    crcRun c (b.set i (byteAt b i ^^^ e)) ≠ crcRun c b := by
  induction b generalizing c i with
  | nil => exact absurd hi (Nat.not_lt_zero i)
  | cons x b ih =>
    cases i with
    | zero =>
      have hstep : crcByteStep c (x ^^^ e) = crcByteStep c x ^^^ crcByteStep 0#16 e := by
        rw [← crcByteStep_xor, BitVec.xor_zero]
      show crcRun (crcByteStep c (x ^^^ e)) b ≠ crcRun (crcByteStep c x) b
      rw [hstep]
      exact crcRun_xor_ne _ _ b (crcByteStep_zero_ne he)
    | succ i => exact ih _ (Nat.lt_of_succ_lt_succ hi)

/-- A byte string with another checksum does not verify against the trailer (R116, R120). -/
theorem verify_eq_false_of_crc16_ne {b b' : List Byte} (h : crc16 b' ≠ crc16 b) :
    verify b' ((crc16 b).extractLsb' 8 8) ((crc16 b).extractLsb' 0 8) = false := by
  rw [← Bool.not_eq_true, verify_iff_crc16, fromBe16_be16]
  exact h

theorem byte_xor_ne {e : Byte} (v : Byte) (he : e ≠ 0#8) : v ^^^ e ≠ v := by
  intro h
  exact he ((BitVec.xor_right_inj v).1 (h.trans BitVec.xor_zero.symm))

/-- Settles O8: the flipped bit is a nonzero difference of one byte, of the covered bytes or of the trailer. -/
theorem singleBitFlipIsDetected : Obligations.SingleBitFlipIsDetected := by
  have hbit : ∀ k < 8, 1#8 <<< k ≠ 0#8 := by decide
  refine ⟨fun b i k hi hk => ?_, fun b k hk => ⟨?_, ?_⟩, by decide +kernel, by decide +kernel⟩
  · have hne := crcRun_set_ne crcInitial (hbit k hk) hi
    exact ⟨hne, verify_eq_false_of_crc16_ne hne⟩
  · rw [← Bool.not_eq_true, verify_iff]
    exact fun h => byte_xor_ne _ (hbit k hk) h.1
  · rw [← Bool.not_eq_true, verify_iff]
    exact fun h => byte_xor_ne _ (hbit k hk) h.2

/-! ### The residue -/

theorem fromBe16_eq_xor (t0 t1 : Byte) : fromBe16 t0 t1 = fromBe16 t0 0#8 ^^^ t1.setWidth 16 := by
  ext i hi
  by_cases h : i < 8
  · simp [fromBe16, h]
  · simp [fromBe16, h, BitVec.getLsbD_of_ge t1 i (Nat.not_lt.1 h)]

/-- Eight bit steps of a byte in the low half meet a clear top bit each time and move it to the top half (R121). -/
theorem crcBitSteps_low_byte (b : Byte) : crcBitSteps 8 (b.setWidth 16) = fromBe16 b 0#8 := by
  rw [crcBitSteps_clear 8 (Nat.le_refl 8)]
  · simp [fromBe16]
  · intro i _ hi
    simp [BitVec.getLsbD_of_ge b i hi]

/-- Two bytes are consumed as one 16-bit value XORed into the register, then sixteen bit steps. -/
theorem crcRun_pair (c : Half) (t0 t1 : Byte) :
    crcRun c [t0, t1] = crcBitSteps 8 (crcBitSteps 8 (c ^^^ fromBe16 t0 t1)) := by
  calc crcRun c [t0, t1]
      = crcBitSteps 8 (crcBitSteps 8 (c ^^^ fromBe16 t0 0#8) ^^^ fromBe16 t1 0#8) := by
        rw [crcRun_cons, crcRun_cons, crcRun_nil, crcByteStep_eq, crcByteStep_eq]
    _ = crcBitSteps 8 (crcBitSteps 8 (c ^^^ fromBe16 t0 t1)) := by
        rw [← crcBitSteps_low_byte t1, ← crcBitSteps_xor, BitVec.xor_assoc, ← fromBe16_eq_xor]

/-- The register over a byte string and a trailer ends at zero for the string's own checksum alone (R121). -/
theorem crc16_append_pair_eq_zero_iff {b : List Byte} {t0 t1 : Byte} :
    crc16 (b ++ [t0, t1]) = 0#16 ↔ crc16 b = fromBe16 t0 t1 := by
  rw [crc16, crcRun_append, crcRun_pair, crcBitSteps_eq_zero_iff, crcBitSteps_eq_zero_iff, BitVec.xor_eq_zero_iff, crc16]

/-- Settles O9: both tests compare the checksum with the trailer read big-endian. -/
theorem crcResidueIsZero : Obligations.CrcResidueIsZero := by
  refine ⟨fun b => ?_, fun b t0 t1 => ?_⟩
  · exact crc16_append_pair_eq_zero_iff.2 (fromBe16_be16 _).symm
  · rw [Bool.eq_iff_iff, verify_iff_crc16, decide_eq_true_iff, crc16_append_pair_eq_zero_iff]

end Sys2Proof.Machine
end

section
/-!
PROOFS. The Packet Model: PKT.ENCODE and PKT.DECODE case by case, the frames they return and accept, and what a corrupted
payload decodes to (spec/41_packet.md R130 to R140).
-/

namespace Sys2Proof.Machine

variable {s : State}

/-! ### The two operations, by what their functions return -/

theorem complete_coreKept (s : State) (r : Result) : CoreKept s (s.complete r) := ⟨rfl, complete_syncKept s r⟩

theorem execPktEncode_ok {type : Byte} {ts : Timestamp} {payload f : List Byte} (hl : s.cfg.legal = true)
    (h : encodePacket s.cfg type ts payload = .ok f) :
    exec (.pktEncode type ts payload) s = .next (s.complete (.frame f)) :=
  (execPktEncode_eq hl).trans (by rw [h])

theorem execPktEncode_error {type : Byte} {ts : Timestamp} {payload : List Byte} {e : OpError}
    (hl : s.cfg.legal = true) (h : encodePacket s.cfg type ts payload = .error e) :
    exec (.pktEncode type ts payload) s = .next (s.raise e) :=
  (execPktEncode_eq hl).trans (by rw [h])

theorem execPktDecode_ok {f : List Byte} {p : Packet} (hl : s.cfg.legal = true) (h : decodePacket s.cfg f = .ok p) :
    exec (.pktDecode f) s = .next (s.complete (.packet p)) :=
  (execPktDecode_eq hl).trans (by rw [h])

theorem execPktDecode_error {f : List Byte} {e : OpError} (hl : s.cfg.legal = true)
    (h : decodePacket s.cfg f = .error e) : exec (.pktDecode f) s = .next (s.raise e) :=
  (execPktDecode_eq hl).trans (by rw [h])

/-! ### Purity -/

/-- An instruction that ends in `t` when issued from `s` disturbs nothing there, and ends the same way from `s'` (R139). -/
def EndsPurely (i : Instr) (s s' t : State) : Prop :=
  CoreKept s t ∧ EnvKept s t ∧ t.rxReq = none ∧
    ∃ t', exec i s' = .next t' ∧ t'.err = t.err ∧ (t.err = none → t'.result = t.result)

theorem endsPurely_complete {i : Instr} {s' : State} {r : Result} (h : exec i s' = .next (s'.complete r)) :
    EndsPurely i s s' (s.complete r) :=
  ⟨complete_coreKept s r, complete_envKept s r, rfl, _, h, rfl, fun _ => rfl⟩

/-- The free values that two raises of one error leave on the result port need not agree (U21). -/
theorem endsPurely_raise {i : Instr} {s' : State} {e : OpError} (h : exec i s' = .next (s'.raise e)) :
    EndsPurely i s s' (s.raise e) :=
  ⟨raise_coreKept s e, raise_envKept s e, rfl, _, h, rfl, nofun⟩

/-- Settles O16: either operation ends by what a function of its operands and the configuration returns. -/
theorem packetOperationsArePure : Obligations.PacketOperationsArePure := by
  rintro i (⟨type, ts, payload, rfl⟩ | ⟨f, rfl⟩) s s' t hcfg h
  · obtain ⟨hl, ⟨f, hf, rfl⟩ | ⟨e, he, rfl⟩⟩ := execPktEncode_next h
    · rw [← hcfg] at hl hf
      exact endsPurely_complete (execPktEncode_ok hl hf)
    · rw [← hcfg] at hl he
      exact endsPurely_raise (execPktEncode_error hl he)
  · obtain ⟨hl, ⟨p, hp, rfl⟩ | ⟨e, he, rfl⟩⟩ := execPktDecode_next h
    · rw [← hcfg] at hl hp
      exact endsPurely_complete (execPktDecode_ok hl hp)
    · rw [← hcfg] at hl he
      exact endsPurely_raise (execPktDecode_error hl he)

/-! ### PKT.ENCODE -/

theorem encodePacket_error {cfg : Config} {type : Byte} {payload : List Byte} (ts : Timestamp)
    (h : (cfg.tt.lookup type).map BitVec.toNat ≠ some payload.length) :
    encodePacket cfg type ts payload = .error (.malformedPayload type payload.length) :=
  if_neg (mt (payloadMatches_iff cfg type payload).1 h)

/-- Settles O12: the two cases of `encodePacket`; the example is its value under the configuration the rule names. -/
theorem pktEncodeBuildsFrameOrRejects : Obligations.PktEncodeBuildsFrameOrRejects := by
  refine ⟨fun _ _ _ h => if_pos h, fun s type ts payload hl hreg => ?_, fun s type ts payload hl hreg => ?_,
    fun s hmagic htt => ?_⟩
  · exact ⟨_, _, execPktEncode_ok hl (encodePacket_ok.2 ⟨hreg, rfl⟩), rfl, rfl, rfl, encodedFrame_length _ _ _ _,
      complete_coreKept s _, complete_envKept s _⟩
  · exact ⟨_, execPktEncode_error hl (encodePacket_error ts hreg), rfl, raise_coreKept s _, raise_envKept s _⟩
  · have hcfg : s.cfg = ⟨0x14#8, [(0x00#8, 4#6)]⟩ := by rw [← hmagic, ← htt]
    refine ⟨_, execPktEncode_ok ?_ ?_, rfl⟩
    · rw [hcfg]
      decide
    · rw [hcfg]
      decide +kernel

/-! ### PKT.DECODE, in the order of checking -/

theorem slice_pair {f : List Byte} {i : Nat} (h : i + 2 ≤ f.length) :
    slice f i (i + 2) = [byteAt f i, byteAt f (i + 1)] := by
  have h0 : i < f.length := by omega
  have h1 : i + 1 < f.length := by omega
  rw [slice, Nat.add_sub_cancel_left, List.drop_eq_getElem_cons h0, List.drop_eq_getElem_cons h1, byteAt, byteAt,
    List.getD_eq_getElem f 0#8 h0, List.getD_eq_getElem f 0#8 h1]
  rfl

section Checks

variable {cfg : Config} {f : List Byte}

theorem decodePacket_tooShort (h : f.length < 2) : decodePacket cfg f = .error (.badLength f.length) := by
  simp [decodePacket, parseFrame, h, frameErrorOf]

theorem decodePacket_badMagic (h : ¬ f.length < 2) (hm : byteAt f 0 ≠ cfg.magic) :
    decodePacket cfg f = .error (.badMagic (byteAt f 0)) := by
  simp [decodePacket, parseFrame, h, hm, frameErrorOf]

theorem decodePacket_unknownType (h : ¬ f.length < 2) (hm : byteAt f 0 = cfg.magic)
    (hl : cfg.tt.lookup (byteAt f 1) = none) : decodePacket cfg f = .error (.unknownType (byteAt f 1)) := by
  simp [decodePacket, parseFrame, h, hm, hl, frameErrorOf]

theorem decodePacket_badLength {l : Len} (h : ¬ f.length < 2) (hm : byteAt f 0 = cfg.magic)
    (hl : cfg.tt.lookup (byteAt f 1) = some l) (hlen : f.length ≠ 8 + l.toNat) :
    decodePacket cfg f = .error (.badLength f.length) := by
  simp [decodePacket, parseFrame, h, hm, hl, hlen, frameErrorOf]

/-- A frame that passes every check gives its slices, with the trailer compared as one string (R132 steps 4 and 5). -/
theorem decodePacket_whole {l : Len} (hm : byteAt f 0 = cfg.magic) (hl : cfg.tt.lookup (byteAt f 1) = some l)
    (hlen : f.length = 8 + l.toNat) :
    decodePacket cfg f = .ok
      { type := byteAt f 1
        ts := ⟨byteAt f 2, byteAt f 3, byteAt f 4, byteAt f 5⟩
        payload := slice f 6 (6 + l.toNat)
        crcValid := decide (be16 (crc16 (slice f 0 (6 + l.toNat))) = slice f (6 + l.toNat) (8 + l.toNat)) } := by
  have h : ¬ f.length < 2 := by omega
  have hpayload : (slice f 6 (6 + l.toNat)).length = l.toNat := by
    rw [slice_length (by omega)]
    omega
  have htrailer : slice f (6 + l.toNat) (8 + l.toNat) = [byteAt f (6 + l.toNat), byteAt f (7 + l.toNat)] := by
    rw [show 8 + l.toNat = 6 + l.toNat + 2 by omega, show 7 + l.toNat = 6 + l.toNat + 1 by omega]
    exact slice_pair (by omega)
  have hparse : parseFrame cfg f = .ok (sliceFrame f l.toNat) := by
    rw [parseFrame, if_neg h, if_neg (not_not.2 hm), hl]
    exact if_neg (not_not.2 hlen)
  simp [decodePacket, hparse, packetOf, sliceFrame, verify, hpayload, htrailer]

end Checks

/-- Under a legal table PKT.DECODE completes with the error or the Packet of `decodePacket` and disturbs nothing. -/
theorem execPktDecode_completes (f : List Byte) (hl : s.cfg.legal = true) :
    ∃ t, exec (.pktDecode f) s = .next t ∧ CoreKept s t ∧ EnvKept s t ∧
      (∀ e, decodePacket s.cfg f = .error e → t.err = some e) ∧
      ∀ p, decodePacket s.cfg f = .ok p → t.err = none ∧ t.result = .packet p := by
  cases h : decodePacket s.cfg f with
  | ok p =>
    refine ⟨_, execPktDecode_ok hl h, complete_coreKept s _, complete_envKept s _, nofun, ?_⟩
    rintro _ ⟨rfl⟩
    exact ⟨rfl, rfl⟩
  | error e =>
    refine ⟨_, execPktDecode_error hl h, raise_coreKept s _, raise_envKept s _, ?_, nofun⟩
    rintro _ ⟨rfl⟩
    rfl

/-- Settles O13: one equation of `decodePacket` for each check that fails, and one for the frame that passes all. -/
theorem pktDecodeSlicesFrameOrRejectsInOrder : Obligations.PktDecodeSlicesFrameOrRejectsInOrder := by
  refine ⟨fun _ h => if_pos h, by decide +kernel, fun s f hl => ?_⟩
  obtain ⟨t, hexec, hcore, henv, herr, hok⟩ := execPktDecode_completes f hl
  refine ⟨t, hexec, hcore, henv, ?_⟩
  split
  · exact herr _ (decodePacket_tooShort ‹_›)
  · split
    · exact herr _ (decodePacket_badMagic ‹_› ‹_›)
    · rename_i h hm
      rw [ne_eq, not_not] at hm
      split
      · exact herr _ (decodePacket_unknownType h hm ‹_›)
      · split
        · exact herr _ (decodePacket_badLength h hm ‹_› ‹_›)
        · exact hok _ (decodePacket_whole hm ‹_› (not_not.1 ‹_›))

/-! ### Encoded frames decode to what they were made of -/

theorem decodePacket_encodedFrame {cfg : Config} {type : Byte} {payload : List Byte} (ts : Timestamp)
    (h : (cfg.tt.lookup type).map BitVec.toNat = some payload.length) :
    decodePacket cfg (encodedFrame cfg type ts payload) = .ok ⟨type, ts, payload, true⟩ := by
  have hverify := (verify_iff (coveredBytes cfg.magic type ts payload) _ _).2 ⟨rfl, rfl⟩
  rw [encodedFrame_eq, decodePacket_frameBytes h, hverify]

/-- Settles O14: the encoded frame is a whole frame whose trailer is the checksum. -/
theorem frameRoundTripGivesFieldsBack : Obligations.FrameRoundTripGivesFieldsBack := by
  intro s s' type ts payload hl hcfg hreg
  refine ⟨_, _, _, execPktEncode_ok hl (encodePacket_ok.2 ⟨hreg, rfl⟩), rfl, rfl, execPktDecode_ok ?_ ?_, rfl, rfl⟩
  · rw [hcfg]
    exact hl
  · rw [hcfg]
    exact decodePacket_encodedFrame ts hreg

/-! ### The invariant of frames -/

theorem parseFrame_of_decodePacket_ok {cfg : Config} {f : List Byte} {p : Packet} (h : decodePacket cfg f = .ok p) :
    ∃ ff, parseFrame cfg f = .ok ff := by
  cases hp : parseFrame cfg f with
  | ok ff => exact ⟨ff, rfl⟩
  | error e => simp [decodePacket, hp] at h

/-- The invariant of a frame for which PKT.DECODE returns a Packet (R140). -/
theorem decodePacket_ok_shape {cfg : Config} {f : List Byte} {p : Packet} (hlegal : cfg.legal = true)
    (h : decodePacket cfg f = .ok p) :
    byteAt f 0 = cfg.magic ∧
      ∃ l, cfg.tt.lookup (byteAt f 1) = some l ∧ f.length = 8 + l.toNat ∧ 8 ≤ f.length ∧ f.length ≤ 56 := by
  obtain ⟨ff, hff⟩ := parseFrame_of_decodePacket_ok h
  obtain ⟨rfl, l, hl, hlen⟩ := parseFrame_ok hff
  obtain ⟨hmin, hmax⟩ := frameBytes_length_bounds cfg (hlen ▸ lookup_le_of_legal hlegal hl)
  exact ⟨rfl, l, hl, by rw [frameBytes_length, hlen], hmin, hmax⟩

/-- An encoded frame ends in the checksum of the bytes before it (R117, R140). -/
theorem encodedFrame_trailer (cfg : Config) (type : Byte) (ts : Timestamp) (payload : List Byte) :
    slice (encodedFrame cfg type ts payload) (6 + payload.length) (8 + payload.length) =
      be16 (crc16 (slice (encodedFrame cfg type ts payload) 0 (6 + payload.length))) := by
  have hbody := coveredBytes_length cfg.magic type ts payload
  have hcovered : slice (encodedFrame cfg type ts payload) 0 (6 + payload.length) =
      coveredBytes cfg.magic type ts payload := List.take_left' hbody
  have hlast : 8 + payload.length - (6 + payload.length) = 2 := by omega
  rw [hcovered, slice, encodedFrame, List.drop_left' hbody, hlast]
  rfl

/-- Settles O15: an encoded frame decodes, so it has the shape of every frame that does. -/
theorem framesSatisfyTheirInvariant : Obligations.FramesSatisfyTheirInvariant := by
  refine ⟨fun cfg type ts payload f hlegal h => ?_, fun _ _ _ hlegal h => decodePacket_ok_shape hlegal h⟩
  obtain ⟨hreg, rfl⟩ := encodePacket_ok.1 h
  obtain ⟨hmagic, l, hl, hlen, hmin, hmax⟩ := decodePacket_ok_shape hlegal (decodePacket_encodedFrame ts hreg)
  have hpayload : l.toNat = payload.length :=
    Nat.add_left_cancel (hlen.symm.trans (encodedFrame_length cfg type ts payload))
  exact ⟨hmagic, l, hl, hlen, hmin, hmax, hpayload ▸ encodedFrame_trailer cfg type ts payload⟩

/-! ### A corrupted payload -/

section Corruption

variable {magic type : Byte} {ts : Timestamp} {payload : List Byte} {i : Nat}

theorem lt_coveredBytes_length (hi : i < payload.length) : 6 + i < (coveredBytes magic type ts payload).length := by
  rw [coveredBytes_length]
  exact Nat.add_lt_add_left hi 6

/-- The payload starts at byte 6 of the covered bytes (R82). -/
theorem byteAt_coveredBytes : byteAt (coveredBytes magic type ts payload) (6 + i) = byteAt payload i := by
  rw [coveredBytes, byteAt_append_right (Nat.le_add_right 6 i)]
  exact congrArg (byteAt payload) (Nat.add_sub_cancel_left 6 i)

theorem coveredBytes_set (b : Byte) :
    (coveredBytes magic type ts payload).set (6 + i) b = coveredBytes magic type ts (payload.set i b) := by
  rw [coveredBytes, List.set_append_right _ _ (Nat.le_add_right 6 i)]
  exact congrArg (fun j => [magic, type] ++ ts.toList ++ payload.set j b) (Nat.add_sub_cancel_left 6 i)

/-- The covered bytes with one payload bit flipped do not verify against the original checksum (R120). -/
theorem verify_coveredBytes_flipped {k : Nat} (hi : i < payload.length) (hk : k < 8) :
    verify (coveredBytes magic type ts (payload.set i (byteAt payload i ^^^ (1#8 <<< k))))
      ((crc16 (coveredBytes magic type ts payload)).extractLsb' 8 8)
      ((crc16 (coveredBytes magic type ts payload)).extractLsb' 0 8) = false := by
  obtain ⟨-, hfalse⟩ := singleBitFlipIsDetected.1 _ _ _ (lt_coveredBytes_length hi) hk
  rwa [byteAt_coveredBytes, coveredBytes_set] at hfalse

end Corruption

theorem byteAt_frameBytes_payload (cfg : Config) {ff : FrameFields} {i : Nat} (hi : i < ff.payload.length) :
    byteAt (frameBytes cfg ff) (6 + i) = byteAt ff.payload i :=
  (byteAt_append_left (lt_coveredBytes_length hi)).trans byteAt_coveredBytes

/-- Overwriting a payload byte of a frame on the wire changes that byte of its payload field and no other field. -/
theorem frameBytes_set_payload (cfg : Config) {ff : FrameFields} {i : Nat} (hi : i < ff.payload.length) (b : Byte) :
    (frameBytes cfg ff).set (6 + i) b = frameBytes cfg { ff with payload := ff.payload.set i b } :=
  (List.set_append_left _ _ (lt_coveredBytes_length hi)).trans (congrArg (· ++ [ff.c0, ff.c1]) (coveredBytes_set b))

/-- Settles O17: the received bytes are still a whole frame of the type, with the trailer of the original payload. -/
theorem corruptedPayloadIsFlaggedNotDropped : Obligations.CorruptedPayloadIsFlaggedNotDropped := by
  intro s type ts payload i k f hl henc hi hk
  obtain ⟨hreg, rfl⟩ := encodePacket_ok.1 henc
  refine ⟨_, execPktDecode_ok hl ?_, rfl, rfl⟩
  rw [encodedFrame_eq, byteAt_frameBytes_payload _ hi, frameBytes_set_payload _ hi,
    decodePacket_frameBytes (hreg.trans (congrArg some List.length_set.symm)), verify_coveredBytes_flipped hi hk]

end Sys2Proof.Machine
end

section
/-!
PROOFS. SYNC.START, and SYNC.STEP state by state: the read it issues and what each response makes of the frame in progress
(spec/42_sync.md R152 to R158).
-/

namespace Sys2Proof.Machine

variable {s t : State} {r : List Byte}

/-! ### The read each state issues -/

theorem readSize_seekMagic (hst : s.st = .seekMagic) : s.readSize = some 1 :=
  readSize_eq_some_iff.2 (.inl ⟨.inl hst, rfl⟩)

theorem readSize_readType (hst : s.st = .readType) : s.readSize = some 1 :=
  readSize_eq_some_iff.2 (.inl ⟨.inr hst, rfl⟩)

theorem readSize_readTs (hst : s.st = .readBody) (hph : s.phase = .ts) : s.readSize = some 4 :=
  readSize_eq_some_iff.2 (.inr ⟨hst, .inl ⟨hph, rfl⟩⟩)

theorem readSize_readPl (hst : s.st = .readBody) (hph : s.phase = .pl) (hlen : s.flen ≠ 0#6) :
    s.readSize = some s.flen.toNat :=
  readSize_eq_some_iff.2 (.inr ⟨hst, .inr (.inl ⟨hph, hlen, rfl⟩)⟩)

theorem readSize_readTr (hst : s.st = .readBody) (hph : s.phase = .tr) : s.readSize = some 2 :=
  readSize_eq_some_iff.2 (.inr ⟨hst, .inr (.inr ⟨hph, rfl⟩)⟩)

theorem readSize_emit (hst : s.st = .emit) : s.readSize = none := by simp [State.readSize, hst]

theorem readSize_ended (hst : s.st = .ended) : s.readSize = none := by simp [State.readSize, hst]

/-! ### A SYNC.STEP that completes -/

theorem exec_syncStep_read {n : Nat} (hl : s.cfg.legal = true) (hn : s.readSize = some n) (hr : r.length ≤ n)
    (hm : SyncMove s r t) : exec (.syncStep r) s = .next t :=
  execSyncStep_iff.2 ⟨hl, overrun_eq_false hn hr, hm⟩

theorem exec_syncStep_noRead (hl : s.cfg.legal = true) (hn : s.readSize = none) (hm : SyncMove s r t) :
    exec (.syncStep r) s = .next t :=
  execSyncStep_iff.2 ⟨hl, overrun_none hn, hm⟩

/-- The bytes of the frame in progress after a store (R24). -/
theorem read_stored (s : State) (a : Nat) (bs : List Byte) (x : Nat) :
    (s.stored a bs).fb.read x =
      if x < a then s.fb.read x else if x < a + bs.length then some (byteAt bs (x - a)) else none := by
  refine (read_store s.fb a bs x).trans ?_
  split
  · rfl
  · split
    · exact getElem?_byteAt (by omega)
    · rfl

/-- With `fill = 0` no byte is in progress (R24). -/
theorem read_setFill_zero (s : State) (x : Nat) : (s.setFill 0).fb.read x = none := by simp

/-! ### The operations -/

/-- Settles O19: SYNC.START by its definition; with `fill = 0` the buffer is empty. -/
theorem syncStartBeginsScan : Obligations.SyncStartBeginsScan :=
  ⟨rfl, fun _ => ⟨_, rfl, rfl, rfl, rfl, read_setFill_zero _, rfl, rfl, rfl, ⟨rfl, rfl, rfl, rfl, rfl, rfl⟩, rfl, rfl, rfl⟩,
    rfl, rfl, rfl⟩

/-- Settles O20: one move for the empty response, one for `MAGIC` and one for any other byte. -/
theorem seekMagicSkipsGarbageByteByByte : Obligations.SeekMagicSkipsGarbageByteByByte := by
  intro s hl hst
  have hn := readSize_seekMagic hst
  refine ⟨hn, ⟨_, exec_syncStep_read hl hn (Nat.zero_le 1) (.scanEnds hst), rfl, rfl, rfl, rfl, rfl, rfl, rfl, rfl, rfl,
    rfl, rfl⟩, fun b => ?_⟩
  by_cases hb : b = s.cfg.magic
  · refine ⟨_, exec_syncStep_read hl hn (Nat.le_refl 1) (.magicFound b [] hst hb), rfl, List.append_nil _, rfl, rfl, rfl,
      rfl, rfl, rfl, fun _ => ⟨rfl, rfl, fun a => (read_stored s 0 [b] a).trans ?_⟩, absurd hb⟩
    cases a <;> simp [byteAt]
  · exact ⟨_, exec_syncStep_read hl hn (Nat.le_refl 1) (.garbage b [] hst hb), rfl, List.append_nil _, rfl, rfl, rfl, rfl,
      rfl, rfl, fun h => absurd h hb, fun _ => ⟨hst, rfl, rfl⟩⟩

/-- Settles O21: one move for the empty response, one for an unregistered type and one for a registered one. -/
theorem readTypeLatchesLengthOrReports : Obligations.ReadTypeLatchesLengthOrReports := by
  intro s hl hst
  have hn := readSize_readType hst
  refine ⟨hn, ⟨_, exec_syncStep_read hl hn (Nat.zero_le 1) (.typeShort hst), rfl, rfl, read_setFill_zero _, rfl, rfl, rfl,
    rfl, rfl, rfl, rfl⟩, fun b hb => ?_, fun b l hb => ?_⟩
  · exact ⟨_, exec_syncStep_read hl hn (Nat.le_refl 1) (.typeUnknown b [] hst hb), rfl, rfl, read_setFill_zero _, rfl, rfl,
      rfl, rfl, rfl, rfl, rfl⟩
  · refine ⟨_, exec_syncStep_read hl hn (Nat.le_refl 1) (.typeKnown b [] l hst hb), rfl, rfl, rfl, rfl, rfl, fun a => ?_,
      rfl, rfl, rfl, rfl⟩
    refine (read_stored s 1 [b] a).trans ?_
    rcases a with _ | _ | a <;> simp [byteAt]

/-- Settles O22: a short response drops the frame, a full one is stored at index 2. -/
theorem readBodyTakesTimestamp : Obligations.ReadBodyTakesTimestamp := by
  intro s hl hst hph
  have hn := readSize_readTs hst hph
  refine ⟨hn, fun r hr => ?_⟩
  rcases Nat.lt_or_eq_of_le hr with hshort | hfull
  · exact ⟨_, exec_syncStep_read hl hn hr (.tsShort r hst hph hshort), rfl, rfl, rfl, rfl, rfl,
      fun _ => ⟨rfl, rfl, read_setFill_zero _, rfl, rfl⟩, fun h => absurd h (Nat.ne_of_lt hshort)⟩
  · have hfit : 2 + r.length ≤ frameMax := by rw [hfull]; decide
    refine ⟨_, exec_syncStep_read hl hn hr (.tsRead r hst hph (Nat.le_of_eq hfull.symm) hfit), rfl, rfl, rfl, rfl, rfl,
      fun h => absurd hfull (Nat.ne_of_lt h), fun _ => ⟨hst, rfl, ?_, rfl, fun a => ?_⟩⟩
    · simp [hfull]
    · exact (read_stored s 2 r a).trans (by rw [hfull])

/-- Settles O23: a short response drops the frame, a full one is stored at index 6. -/
theorem readBodyTakesPayload : Obligations.ReadBodyTakesPayload := by
  intro s hl hst hph hpos hmax
  have hlen : s.flen ≠ 0#6 := fun h => absurd hpos (by simp [h])
  have hn := readSize_readPl hst hph hlen
  refine ⟨hn, fun r hr => ?_⟩
  rcases Nat.lt_or_eq_of_le hr with hshort | hfull
  · exact ⟨_, exec_syncStep_read hl hn hr (.plShort r hst hph hlen hshort), rfl, rfl, rfl, rfl, rfl,
      fun _ => ⟨rfl, rfl, read_setFill_zero _, rfl, rfl⟩, fun h => absurd h (Nat.ne_of_lt hshort)⟩
  · have hfit : 6 + r.length ≤ frameMax := by simp only [frameMax]; omega
    refine ⟨_, exec_syncStep_read hl hn hr (.plRead r hst hph hlen (Nat.le_of_eq hfull.symm) hfit), rfl, rfl, rfl, rfl, rfl,
      fun h => absurd hfull (Nat.ne_of_lt h), fun _ => ⟨hst, rfl, ?_, rfl, fun a => ?_⟩⟩
    · exact hfull ▸ toNat_fill (by omega)
    · exact (read_stored s 6 r a).trans (by rw [hfull])

/-- Settles O24: a short response drops the frame, a full one is stored behind the payload. -/
theorem readBodyTakesTrailer : Obligations.ReadBodyTakesTrailer := by
  intro s hl hst hph hmax
  have hn := readSize_readTr hst hph
  refine ⟨hn, fun r hr => ?_⟩
  rcases Nat.lt_or_eq_of_le hr with hshort | hfull
  · exact ⟨_, exec_syncStep_read hl hn hr (.trShort r hst hph hshort), rfl, rfl, rfl, rfl, rfl,
      fun _ => ⟨rfl, rfl, read_setFill_zero _, rfl, rfl⟩, fun h => absurd h (Nat.ne_of_lt hshort)⟩
  · have hfit : 6 + s.flen.toNat + r.length ≤ frameMax := by simp only [frameMax]; omega
    have hend : 6 + s.flen.toNat + r.length = 8 + s.flen.toNat := by omega
    refine ⟨_, exec_syncStep_read hl hn hr (.trRead r hst hph (Nat.le_of_eq hfull.symm) hfit), rfl, rfl, rfl, rfl, rfl,
      fun h => absurd hfull (Nat.ne_of_lt h), fun _ => ⟨rfl, rfl, ?_, rfl, fun a => ?_⟩⟩
    · exact hend ▸ toNat_fill (by omega)
    · exact (read_stored s (6 + s.flen.toNat) r a).trans (by rw [hend])

/-- Settles O25: the move of `EMIT`, which looks at no response. -/
theorem emitYieldsDecodedPacket : Obligations.EmitYieldsDecodedPacket := by
  intro s r f p hl hst hf hp
  exact ⟨_, exec_syncStep_noRead hl (readSize_emit hst) (.emitted r f p hst hf hp), rfl, rfl, rfl, rfl, rfl,
    read_setFill_zero _, rfl, rfl, rfl, rfl, rfl, rfl, rfl⟩

end Sys2Proof.Machine
end

section
/-!
PROOFS. What SYNC.STEP does from a state with the invariant: it always completes, by the row of the transition table that
applies, and it reaches and leaves `END` only as spec/42_sync.md R159 and R161 say (R151, R162, R165).
-/

namespace Sys2Proof.Machine

variable {s t : State} {r : List Byte}

/-! ### The frame in `EMIT` -/

/-- With the invariant all of `fb[0 ..< fill]` can be read (R24). -/
theorem frameInProgress_of_inv (h : s.Inv) : ∃ f, s.fb.readBytes 0 s.fill.toNat = some f :=
  Memory.readBytes_of_reads fun i hi => by
    rw [Nat.zero_add]
    exact Memory.read_isSome_of_keys h.bufferFilled hi

theorem byteAt_of_readBytes {m : Memory} {n i : Nat} {f : List Byte} {b : Byte} (h : m.readBytes 0 n = some f)
    (hi : i < n) (hb : m.read i = some b) : byteAt f i = b := by
  obtain ⟨hlen, hread⟩ := Memory.readBytes_some h
  have hget := hread i hi
  rw [Nat.zero_add, hb, getElem?_byteAt (hlen ▸ hi)] at hget
  exact (Option.some.inj hget).symm

/-- What stands in the frame buffer in `EMIT` passes every check of PKT.DECODE (R165). -/
theorem emit_frame_decodes (h : s.Inv) (hst : s.st = .emit) :
    ∃ f p, s.fb.readBytes 0 s.fill.toNat = some f ∧ byteAt f 0 = s.cfg.magic ∧
      s.cfg.tt.lookup (byteAt f 1) = some s.flen ∧ f.length = 8 + s.flen.toNat ∧ decodePacket s.cfg f = .ok p := by
  obtain ⟨hhead, hfill⟩ := (control_emit hst).1 h.controlled
  obtain ⟨f, hf⟩ := frameInProgress_of_inv h
  have hmagic : byteAt f 0 = s.cfg.magic := byteAt_of_readBytes hf (by omega) hhead.magicAt0
  have htype : byteAt f 1 = s.ftype := byteAt_of_readBytes hf (by omega) hhead.typeAt1
  have hlookup : s.cfg.tt.lookup (byteAt f 1) = some s.flen := htype ▸ hhead.lengthOfType
  have hlen : f.length = 8 + s.flen.toNat := (Memory.readBytes_some hf).1.trans hfill
  exact ⟨f, _, hf, hmagic, hlookup, hlen, decodePacket_whole hmagic hlookup hlen⟩

/-- Settles O29: the buffered frame decodes, so the move of `EMIT` applies. -/
theorem emitCannotFail : Obligations.EmitCannotFail := by
  intro s r h hst
  obtain ⟨f, p, hf, hmagic, hlookup, hlen, hp⟩ := emit_frame_decodes h hst
  obtain ⟨-, hfill⟩ := (control_emit hst).1 h.controlled
  exact ⟨f, p, _, hf, hmagic, hlookup, hlen, hfill, hp,
    exec_syncStep_noRead h.cfgLegal (readSize_emit hst) (.emitted r f p hst hf hp), rfl, rfl⟩

/-! ### Every SYNC.STEP completes -/

/-- From a state with the invariant some move applies to every response the read admits (R151: "Exceptions: none"). -/
theorem exists_syncMove (h : s.Inv) (ho : s.overrun r = false) : ∃ t, SyncMove s r t := by
  have hread : ∀ {n}, s.readSize = some n → r.length ≤ n := fun hn => length_le_of_overrun ho hn
  cases hst : s.st with
  | seekMagic =>
    cases r with
    | nil => exact ⟨_, .scanEnds hst⟩
    | cons b r =>
      by_cases hb : b = s.cfg.magic
      · exact ⟨_, .magicFound b r hst hb⟩
      · exact ⟨_, .garbage b r hst hb⟩
  | readType =>
    cases r with
    | nil => exact ⟨_, .typeShort hst⟩
    | cons b r =>
      cases hb : s.cfg.tt.lookup b with
      | none => exact ⟨_, .typeUnknown b r hst hb⟩
      | some l => exact ⟨_, .typeKnown b r l hst hb⟩
  | readBody =>
    have hmax := flen_le_of_inv h (.inl hst)
    have hframe : frameMax = 56 := rfl
    cases hph : s.phase with
    | ts =>
      have hle := hread (readSize_readTs hst hph)
      rcases Nat.lt_or_ge r.length 4 with hshort | hfull
      · exact ⟨_, .tsShort r hst hph hshort⟩
      · exact ⟨_, .tsRead r hst hph hfull (by omega)⟩
    | pl =>
      obtain ⟨-, -, hpos⟩ := (control_readPl hst hph).1 h.controlled
      have hle := hread (readSize_readPl hst hph hpos)
      rcases Nat.lt_or_ge r.length s.flen.toNat with hshort | hfull
      · exact ⟨_, .plShort r hst hph hpos hshort⟩
      · exact ⟨_, .plRead r hst hph hpos hfull (by omega)⟩
    | tr =>
      have hle := hread (readSize_readTr hst hph)
      rcases Nat.lt_or_ge r.length 2 with hshort | hfull
      · exact ⟨_, .trShort r hst hph hshort⟩
      · exact ⟨_, .trRead r hst hph hfull (by omega)⟩
  | emit =>
    obtain ⟨f, p, hf, -, -, -, hp⟩ := emit_frame_decodes h hst
    exact ⟨_, .emitted r f p hst hf hp⟩
  | ended => exact ⟨_, .atEnd r hst⟩

theorem exec_syncStep_completes (h : s.Inv) (ho : s.overrun r = false) :
    ∃ t, exec (.syncStep r) s = .next t ∧ SyncMove s r t := by
  obtain ⟨t, hm⟩ := exists_syncMove h ho
  exact ⟨t, execSyncStep_iff.2 ⟨h.cfgLegal, ho, hm⟩, hm⟩

theorem overrun_eq_false_of_le (hr : ∀ n, s.readSize = some n → r.length ≤ n) : s.overrun r = false := by
  cases hn : s.readSize with
  | none => exact overrun_none hn
  | some n => exact overrun_eq_false hn (hr n hn)

/-- Settles O27: some move applies, and each move is one row of the table; the row of a payload of length 0 is excluded by
the invariant. -/
theorem syncStepFollowsTransitionTable : Obligations.SyncStepFollowsTransitionTable := by
  intro s r h hr
  obtain ⟨t, hexec, hm⟩ := exec_syncStep_completes h (overrun_eq_false_of_le hr)
  refine ⟨t, hexec, ?_⟩
  cases hm with
  | scanEnds hst => simp [hst, readSize_seekMagic hst]
  | magicFound b r hst hb => simp [hst, readSize_seekMagic hst, byteAt, hb]
  | garbage b r hst hb => simp [hst, readSize_seekMagic hst, byteAt, hb]
  | typeShort hst => simp [hst, readSize_readType hst]
  | typeUnknown b r hst hb => simp [hst, readSize_readType hst, byteAt, hb]
  | typeKnown b r l hst hb => simp [hst, readSize_readType hst, byteAt, hb]
  | tsShort r hst hph hshort => simp [hst, hph, readSize_readTs hst hph, hshort]
  | tsRead r hst hph hfull hfit =>
    by_cases hlen : s.flen = 0#6
    · simp [hst, hph, readSize_readTs hst hph, Nat.not_lt.2 hfull, hlen]
    · have hpos : 1 ≤ s.flen.toNat := Nat.one_le_iff_ne_zero.2 fun h0 => hlen (BitVec.eq_of_toNat_eq h0)
      simp [hst, hph, readSize_readTs hst hph, Nat.not_lt.2 hfull, hlen, hpos]
  | plNone r hst hph hlen =>
    obtain ⟨-, -, hpos⟩ := (control_readPl hst hph).1 h.controlled
    exact absurd hlen hpos
  | plShort r hst hph hlen hshort => simp [hst, hph, readSize_readPl hst hph hlen, hshort]
  | plRead r hst hph hlen hfull hfit => simp [hst, hph, readSize_readPl hst hph hlen, Nat.not_lt.2 hfull]
  | trShort r hst hph hshort => simp [hst, hph, readSize_readTr hst hph, hshort]
  | trRead r hst hph hfull hfit => simp [hst, hph, readSize_readTr hst hph, Nat.not_lt.2 hfull]
  | emitted r f p hst hf hp => simp [hst, readSize_emit hst]
  | atEnd r hst => simp [hst, readSize_ended hst]

/-! ### Entering and leaving `END` -/

/-- Only an empty read in `SEEK_MAGIC` enters `END` (R161). -/
theorem syncMove_ended_iff (hne : s.st ≠ .ended) (hm : SyncMove s r t) :
    t.st = .ended ↔ s.st = .seekMagic ∧ r = [] := by
  cases hm with
  | atEnd _ hst => exact absurd hst hne
  | scanEnds hst | magicFound _ _ hst | garbage _ _ hst | typeShort hst | typeUnknown _ _ hst | typeKnown _ _ _ hst
  | tsShort _ hst | tsRead _ hst | plNone _ hst | plShort _ hst | plRead _ hst | trShort _ hst | trRead _ hst
  | emitted _ _ _ hst => simp [hst]

/-- The event End is that of the move that enters `END`. -/
theorem syncMove_event_ended_iff (hne : s.st ≠ .ended) (hm : SyncMove s r t) :
    t.event = some .ended ↔ t.st = .ended := by
  cases hm with
  | atEnd _ hst => exact absurd hst hne
  | scanEnds hst | magicFound _ _ hst | garbage _ _ hst | typeShort hst | typeUnknown _ _ hst | typeKnown _ _ _ hst
  | tsShort _ hst | tsRead _ hst | plNone _ hst | plShort _ hst | plRead _ hst | trShort _ hst | trRead _ hst
  | emitted _ _ _ hst => simp [hst]

/-- In `END` the one move changes neither the core nor its environment (R159). -/
theorem syncMove_of_ended (hst : s.st = .ended) (hm : SyncMove s r t) : t = s.produce none none .noResult := by
  cases hm with
  | atEnd r _ => rfl
  | scanEnds h | magicFound _ _ h | garbage _ _ h | typeShort h | typeUnknown _ _ h | typeKnown _ _ _ h
  | tsShort _ h | tsRead _ h | plNone _ h | plShort _ h | plRead _ h | trShort _ h | trRead _ h | emitted _ _ _ h =>
    simp [hst] at h

theorem overrun_nil (s : State) : s.overrun [] = false := overrun_eq_false_of_le fun n _ => Nat.zero_le n

/-- An empty read in `READ_TYPE` or `READ_BODY` drops the frame in progress (R161, R164). -/
theorem syncMove_nil_drops (h : s.Inv) (hst : s.st = .readType ∨ s.st = .readBody) :
    ∃ req ev, SyncMove s [] (s.dropFrame req ev) := by
  rcases hst with hst | hst
  · exact ⟨_, _, .typeShort hst⟩
  · cases hph : s.phase with
    | ts => exact ⟨_, _, .tsShort [] hst hph (by decide)⟩
    | pl =>
      obtain ⟨-, -, hpos⟩ := (control_readPl hst hph).1 h.controlled
      exact ⟨_, _, .plShort [] hst hph hpos (Nat.pos_of_ne_zero fun h0 => hpos (BitVec.eq_of_toNat_eq h0))⟩
    | tr => exact ⟨_, _, .trShort [] hst hph (by decide)⟩

/-- Settles O28: which move enters `END`; an empty read elsewhere drops the frame, and the next one ends the scan. -/
theorem scanEndsOnlyOnEmptyReadInSeekMagic : Obligations.ScanEndsOnlyOnEmptyReadInSeekMagic := by
  refine ⟨fun s t r hne hexec => ?_, fun s h hst => ?_⟩
  · obtain ⟨-, -, hm⟩ := execSyncStep_iff.1 hexec
    obtain ⟨-, -, -, -, -, -, herr, -⟩ := syncMove_kept hm
    exact ⟨syncMove_ended_iff hne hm, fun hend => ⟨(syncMove_event_ended_iff hne hm).2 hend, herr⟩⟩
  · obtain ⟨req, ev, hm⟩ := syncMove_nil_drops h hst
    exact ⟨_, execSyncStep_iff.2 ⟨h.cfgLegal, overrun_nil s, hm⟩, rfl, rfl, _,
      execSyncStep_iff.2 ⟨h.cfgLegal, overrun_nil _, .scanEnds rfl⟩, rfl, rfl⟩

/-- An instruction leaves `END` only if it is SYNC.START (R159). -/
theorem eq_syncStart_of_leaves_ended {i : Instr} (hst : s.st = .ended) (h : exec i s = .next t) (ht : t.st ≠ .ended) :
    i = .syncStart := by
  by_contra hstart
  by_cases hstep : ∃ r, i = .syncStep r
  · obtain ⟨r, rfl⟩ := hstep
    obtain ⟨-, -, hm⟩ := execSyncStep_iff.1 h
    obtain rfl := syncMove_of_ended hst hm
    exact ht hst
  · have hkept := (exec_opEnd hstart (fun r hr => hstep ⟨r, hr⟩) h).syncKept
    exact ht (hkept.st.trans hst)

/-- A presentation leaves `END` only if it is one of SYNC.START: a SYNC.STEP there takes no response (R159). -/
theorem decode_eq_syncStart_of_leaves_ended {p : Presented} (hst : s.st = .ended) (h : issue p s = .next t)
    (ht : t.st ≠ .ended) : decode s.cfg p = .ok .syncStart := by
  by_cases hp : ∀ c, p = .op4 c → c.op ≠ 0x7#4
  · obtain ⟨i, hd, hexec⟩ | ⟨bs, -, -, rfl⟩ := issue_cases h
    · rw [answered_other s hp] at hd hexec
      obtain rfl := eq_syncStart_of_leaves_ended hst hexec ht
      exact hd
    · exact absurd hst ht
  · push Not at hp
    obtain ⟨c, rfl, hop⟩ := hp
    rw [issue_op7_noRead hop (readSize_ended hst)] at h
    exact nomatch eq_syncStart_of_leaves_ended hst h ht

/-- Settles O26: the move of `END`; and input by input, what changes `st` from `END`. -/
theorem endHoldsUntilStartOrReset : Obligations.EndHoldsUntilStartOrReset := by
  refine ⟨fun s r hl hst => ⟨_, exec_syncStep_noRead hl (readSize_ended hst) (.atEnd r hst), rfl, rfl, rfl,
    ⟨rfl, rfl, rfl, rfl, rfl, rfl, rfl⟩, ⟨rfl, rfl, rfl, rfl, List.append_nil _, rfl⟩⟩, fun s t hst hstep ht => ?_⟩
  cases hin : s.inputs with
  | nil =>
    obtain rfl := Host.Outcome.next.inj ((step_idle hin).symm.trans hstep)
    exact absurd hst ht
  | cons input rest =>
    rw [step_serves hin] at hstep
    refine ⟨rest, ?_⟩
    cases input with
    | present p =>
      exact .inr ⟨p, rfl, decode_eq_syncStart_of_leaves_ended (s := { s with inputs := rest }) hst hstep ht⟩
    | reset => exact .inl rfl
    | send f written =>
      obtain rfl := sendFrame_next hstep
      exact absurd hst ht
    | timeout =>
      obtain rfl := Host.Outcome.next.inj hstep
      exact absurd hst ht

/-! ### No step faults -/

theorem inv_withRx (h : s.Inv) (rx : List (List Byte)) : ({ s with rx := rx } : State).Inv :=
  inv_of_kept h ⟨rfl, rfl, rfl, rfl, rfl, rfl⟩ rfl

theorem inv_withInputs (h : s.Inv) (inputs : List Input) : ({ s with inputs := inputs } : State).Inv :=
  inv_of_kept h ⟨rfl, rfl, rfl, rfl, rfl, rfl⟩ rfl

theorem noFault_next (t : State) : NoFault (.next t) := fun _ => nofun

theorem noFault_refused (e : Refusal) : NoFault (.refused e) := fun _ => nofun

theorem noFault_whenLegal {o : Outcome} (h : NoFault o) : NoFault (whenLegal s o) := by
  unfold whenLegal
  split
  · exact h
  · exact noFault_refused _

/-- With the invariant SYNC.STEP completes, or the response was longer than the read. -/
theorem noFault_execSyncStep (r : List Byte) (h : s.Inv) : NoFault (exec (.syncStep r) s) := by
  cases ho : s.overrun r with
  | false =>
    obtain ⟨t, hexec, -⟩ := exec_syncStep_completes h ho
    exact hexec ▸ noFault_next t
  | true =>
    have hrefused : exec (.syncStep r) s = .refused .transportOverrun := by
      simp [exec, execSyncStep, h.cfgLegal, ho]
    exact hrefused ▸ noFault_refused _

theorem noFault_execPixUnpack (bs : List Byte) : NoFault (execPixUnpack bs s) := by
  unfold execPixUnpack
  split
  · exact noFault_next _
  · exact noFault_next _

theorem noFault_execPktEncode (type : Byte) (ts : Timestamp) (payload : List Byte) :
    NoFault (execPktEncode type ts payload s) := by
  refine noFault_whenLegal ?_
  cases encodePacket s.cfg type ts payload with
  | ok f => exact noFault_next _
  | error e => exact noFault_next _

theorem noFault_execPktDecode (f : List Byte) : NoFault (execPktDecode f s) := by
  refine noFault_whenLegal ?_
  cases decodePacket s.cfg f with
  | ok p => exact noFault_next _
  | error e => exact noFault_next _

/-- SYNC.STEP is the one instruction that can fault at all. -/
theorem noFault_exec (h : s.Inv) (i : Instr) : NoFault (exec i s) := by
  cases i with
  | syncStep r => exact noFault_execSyncStep r h
  | pktEncode type ts payload => exact noFault_execPktEncode type ts payload
  | pktDecode f => exact noFault_execPktDecode f
  | pixUnpack bs => exact noFault_execPixUnpack bs
  | frame | frameImageChunk => exact fun _ => execFrame_ne_fault
  | crcInit | crcUpdate | crcCompute | crcVerify | syncStart | c565Enc | c565Dec | pixPack | pixel565
  | reservedC | reservedD | reservedE | reservedF => exact noFault_next _

theorem noFault_undecodable (p : Presented) (e : DecodeError) : NoFault (undecodable p e s) := by
  cases p with
  | op4 | pix16 => exact noFault_refused _
  | wire8 | wire16 => exact noFault_whenLegal (noFault_next _)

theorem noFault_issue (h : s.Inv) (p : Presented) : NoFault (issue p s) := by
  obtain ⟨rx, hrx⟩ := answered_state p s
  have hinv : (answered p s).2.Inv := hrx ▸ inv_withRx h rx
  unfold issue
  split
  · exact noFault_exec hinv _
  · exact noFault_undecodable p _

theorem noFault_sendFrame (f : List Byte) (written : Nat) : NoFault (sendFrame f written s) := by
  refine noFault_whenLegal ?_
  split
  · exact noFault_refused _
  · split
    · exact noFault_next _
    · exact noFault_refused _

theorem noFault_step (h : s.Inv) : NoFault (step s) := by
  cases hin : s.inputs with
  | nil => exact step_idle hin ▸ noFault_next s
  | cons input rest =>
    rw [step_serves hin]
    cases input with
    | present p => exact noFault_issue (inv_withInputs h rest) p
    | reset => exact noFault_next _
    | send f written => exact noFault_sendFrame f written
    | timeout => exact noFault_next _

/-! ### A presented SYNC.STEP -/

/-- With the invariant a presented SYNC.STEP completes, whatever is on RX. -/
theorem issue_syncStep_completes (h : s.Inv) : ∃ t, issue syncStepPort s = .next t := by
  cases hn : s.readSize with
  | none =>
    obtain ⟨t, hexec, -⟩ := exec_syncStep_completes h (overrun_nil s)
    exact ⟨t, (issue_op7_noRead rfl hn).trans hexec⟩
  | some n =>
    obtain ⟨t, hexec, -⟩ := exec_syncStep_completes (inv_withRx h (channelRead s.rx n).2)
      (overrun_eq_false hn (channelRead_length s.rx n))
    exact ⟨t, (issue_op7_read rfl hn).trans hexec⟩

/-- A presented SYNC.STEP that completes is one move, with the bytes it took from RX as its response (R51, R151). -/
theorem issue_syncStep_move (h : issue syncStepPort s = .next t) :
    ∃ r, s.rx.flatten = r ++ t.rx.flatten ∧ ({ s with rx := t.rx } : State).overrun r = false ∧
      SyncMove { s with rx := t.rx } r t := by
  obtain ⟨r, hrx, -, -, hexec⟩ := stepConsumesExactlyItsResponse.1 s t h
  obtain ⟨-, ho, hm⟩ := execSyncStep_iff.1 hexec
  exact ⟨r, hrx, ho, hm⟩

theorem issue_syncStep_kept (h : issue syncStepPort s = .next t) :
    t.inputs = s.inputs ∧ t.err = none ∧ t.events = s.events ++ t.event.toList := by
  obtain ⟨r, -, -, hm⟩ := issue_syncStep_move h
  obtain ⟨-, -, -, -, -, hin, herr, hevents⟩ := syncMove_kept hm
  exact ⟨hin, herr, hevents⟩

theorem legal_of_issue_syncStep (h : issue syncStepPort s = .next t) : t.cfg.legal = true := by
  obtain ⟨r, -, -, -, hexec⟩ := stepConsumesExactlyItsResponse.1 s t h
  obtain ⟨hl, -, hm⟩ := execSyncStep_iff.1 hexec
  obtain ⟨-, hcfg, -⟩ := syncMove_kept hm
  exact hcfg ▸ hl

theorem inv_issue_syncStep (h : s.Inv) (hs : issue syncStepPort s = .next t) : t.Inv := by
  obtain ⟨r, -, ho, hm⟩ := issue_syncStep_move hs
  exact inv_syncMove (inv_withRx h t.rx) ho hm

theorem event_ended_iff_of_issue (hne : s.st ≠ .ended) (hs : issue syncStepPort s = .next t) :
    t.event = some .ended ↔ t.st = .ended := by
  obtain ⟨r, -, -, hm⟩ := issue_syncStep_move hs
  exact syncMove_event_ended_iff (s := { s with rx := t.rx }) hne hm

/-- Settles O53: no input faults, SYNC.STEP because some move applies; and a presented SYNC.STEP completes. -/
theorem stepNeverFaults : Obligations.StepNeverFaults := by
  refine ⟨fun s h => noFault_step h, fun s rest h hin => ?_⟩
  obtain ⟨t, ht⟩ := issue_syncStep_completes (inv_withInputs h rest)
  obtain ⟨hinputs, herr, -⟩ := issue_syncStep_kept ht
  exact ⟨t, (step_present hin).trans ht, hinputs, herr⟩

end Sys2Proof.Machine
end

section
/-!
PROOFS. Whole scans: SYNC.NEXT and SYNC.RUN (spec/42_sync.md R160) over garbage and frames in RX, and their termination over
what RX holds (R161, R166, R167; spec/70_reset_and_hazards.md R252).
-/

namespace Sys2Proof.Machine

variable {s t u : State} {n : Nat} {garbage left : List Byte} {later : List (List Byte)}

/-! ### SYNC.NEXT, by the event of its first SYNC.STEP -/

theorem syncNext_packet {p : Packet} (h : issue syncStepPort s = .next t) (hev : t.event = some (.emit p)) :
    syncNext (n + 1) s = .packet p t := by
  simp [syncNext, h, hev]

theorem syncNext_finished (h : issue syncStepPort s = .next t) (hev : t.event = some .ended) :
    syncNext (n + 1) s = .finished t := by
  simp [syncNext, h, hev]

theorem syncNext_continues (h : issue syncStepPort s = .next t) (hemit : ∀ p, t.event ≠ some (.emit p))
    (hend : t.event ≠ some .ended) : syncNext (n + 1) s = syncNext n t := by
  cases hev : t.event with
  | none => simp [syncNext, h, hev]
  | some e =>
    cases e with
    | emit p => exact absurd hev (hemit p)
    | ended => exact absurd hev hend
    | reportUnknownType | dropShort => simp [syncNext, h, hev]

/-- SYNC.NEXT passes over SYNC.STEPs without an event. -/
theorem syncNext_quietSteps {m : Nat} {inputs : List Input} (h : QuietSteps n s t) :
    syncNext (m + n) { s with inputs := inputs } = syncNext m { t with inputs := inputs } := by
  induction h with
  | refl => rfl
  | step h hev _ ih => exact (syncNext_continues (h inputs) (by simp [hev]) (by simp [hev])).trans ih

/-- SYNC.NEXT returns the Packet of the first Emit event. -/
theorem syncNext_emitted {m : Nat} {p : Packet} {inputs : List Input} {rx : List (List Byte)} (hq : QuietSteps n s u)
    (hlast : SyncStepsTo u t) (he : Emitted s p rx t) :
    syncNext (m + 1 + n) { s with inputs := inputs } = .packet p { t with inputs := inputs } :=
  (syncNext_quietSteps hq).trans (syncNext_packet (hlast inputs) he.event)

/-! ### Garbage before a frame -/

/-- R153: bytes other than `MAGIC` are dropped one by one. -/
theorem garbage_skipped (h : s.Inv) (hst : s.st = .seekMagic) (hg : ∀ b ∈ garbage, b ≠ s.cfg.magic)
    (hrx : s.rx = (garbage ++ left) :: later) :
    ∃ t, QuietSteps garbage.length s t ∧ Midway s [] left later t ∧ t.Inv ∧ t.st = .seekMagic := by
  induction garbage generalizing s with
  | nil => exact ⟨s, .refl s, midway_nil h hst hrx, h, hst⟩
  | cons b garbage ih =>
    have hb := hg b List.mem_cons_self
    have hn := readSize_seekMagic hst
    have hread : channelRead s.rx 1 = ([b], (garbage ++ left) :: later) :=
      (congrArg (channelRead · 1) hrx).trans (channelRead_full (r := [b]) rfl)
    obtain ⟨t, hq, hmid, hinv, hst'⟩ :=
      ih (s := { s with rx := (garbage ++ left) :: later }.produce (some 1) none .noResult)
        (inv_of_kept h ⟨rfl, rfl, rfl, rfl, rfl, rfl⟩ rfl) hst (fun c hc => hg c (List.mem_cons_of_mem b hc)) rfl
    refine ⟨t, .step (fun rest => ?_) rfl hq, ?_, hinv, hst'⟩
    · exact issue_syncStep_read (s := { s with inputs := rest }) h.cfgLegal hn hread (by decide) (.garbage b [] hst hb)
    · exact ⟨hmid.cfg, hmid.crc, hmid.events.trans (List.append_nil _), hmid.fill, hmid.buffered, hmid.rx⟩

/-- R166: garbage without `MAGIC` and then an encoded frame, in one segment: no event before the Emit of that frame. -/
theorem garbage_frame_scanned {f : List Byte} {type : Byte} {ts : Timestamp} {payload : List Byte} (h : s.Inv)
    (hst : s.st = .seekMagic) (hg : ∀ b ∈ garbage, b ≠ s.cfg.magic) (henc : encodePacket s.cfg type ts payload = .ok f)
    (hrx : s.rx = (garbage ++ f ++ left) :: later) :
    ∃ n u t, QuietSteps n s u ∧ SyncStepsTo u t ∧ Emitted s ⟨type, ts, payload, true⟩ (left :: later) t := by
  obtain ⟨hreg, rfl⟩ := encodePacket_ok.1 henc
  rw [List.append_assoc, encodedFrame_eq] at hrx
  obtain ⟨v, hq, hmid, hinv, hst'⟩ := garbage_skipped h hst hg hrx
  rw [← hmid.cfg] at hreg
  obtain ⟨u, t, hq', hlast, he⟩ := frame_scanned hinv hst' (hmid.cfg.symm ▸ hmid.rx) hreg
  have hverify := (verify_iff (coveredBytes s.cfg.magic type ts payload) _ _).2 ⟨rfl, rfl⟩
  rw [hmid.cfg, hverify] at he
  exact ⟨_, u, t, hq.trans hq', hlast,
    ⟨he.event, he.events.trans (congrArg (· ++ _) hmid.events), he.rx, he.st, he.fill, he.crc.trans hmid.crc⟩⟩

/-- Settles O32: the garbage is skipped without an event, the frame is scanned to its Emit. -/
theorem garbageThenFrameResynchronizes : Obligations.GarbageThenFrameResynchronizes := by
  intro s garbage f tail rest type ts payload h hst hg henc hrx
  obtain ⟨n, u, t, hq, hlast, he⟩ := garbage_frame_scanned h hst hg henc hrx
  obtain ⟨-, herr, -⟩ := issue_syncStep_kept (hlast s.inputs)
  obtain ⟨hreg, rfl⟩ := encodePacket_ok.1 henc
  exact ⟨0 + 1 + n, _, { t with inputs := s.inputs }, decodePacket_encodedFrame ts hreg, rfl, syncNext_emitted hq hlast he,
    he.events, herr, he.st, he.rx⟩

/-! ### SYNC.RUN -/

/-- The state SYNC.START leaves (R152). -/
def State.started (s : State) : State := ({ s with st := .seekMagic, phase := .ts }.setFill 0).complete .noResult

theorem issue_syncStart (s : State) : issue syncStartPort s = .next s.started := rfl

theorem inv_started (h : s.Inv) : s.started.Inv := inv_of_empty h.cfgLegal (.inl rfl) (Memory.below_zero _) rfl

theorem syncRun_eq (fuel : Nat) (s : State) : syncRun fuel s = syncCollect fuel fuel s.started := by
  simp [syncRun, issue_syncStart]

theorem syncCollect_packet {fuel : Nat} {p : Packet} {ps : List Packet} (hnext : syncNext fuel s = .packet p t)
    (h : syncCollect fuel n t = some (ps, u)) : syncCollect fuel (n + 1) s = some (p :: ps, u) := by
  simp [syncCollect, hnext, h]

theorem syncCollect_finished {fuel : Nat} (hnext : syncNext fuel s = .finished t) :
    syncCollect fuel (n + 1) s = some ([], t) := by
  simp [syncCollect, hnext]

/-! ### A frame of an unregistered type -/

/-- R154, R167: `MAGIC` and an unregistered type cost two bytes and are reported. -/
theorem unknownType_reported {unknown : Byte} (h : s.Inv) (hst : s.st = .seekMagic)
    (hunknown : s.cfg.tt.lookup unknown = none) (hrx : s.rx = (s.cfg.magic :: unknown :: left) :: later) :
    ∃ u t, QuietSteps 1 s u ∧ SyncStepsTo u t ∧ t.event = some (.reportUnknownType unknown) ∧ t.Inv ∧
      t.cfg = s.cfg ∧ t.st = .seekMagic ∧ t.rx = left :: later ∧
      t.events = s.events ++ [.reportUnknownType unknown] := by
  obtain ⟨u, hq, hmid, hst'⟩ := (midway_nil h hst hrx).reads_magic h.cfgLegal hst
  have hl : u.cfg.legal = true := hmid.cfg ▸ h.cfgLegal
  have hread : channelRead u.rx 1 = ([unknown], left :: later) :=
    (congrArg (channelRead · 1) hmid.rx).trans (channelRead_full (r := [unknown]) rfl)
  refine ⟨u, { u with rx := left :: later }.dropFrame 1 (.reportUnknownType unknown), hq, fun rest => ?_, rfl,
    inv_of_empty hl (.inl rfl) (Memory.below_zero _) rfl, hmid.cfg, rfl, rfl, congrArg (· ++ _) hmid.events⟩
  exact issue_syncStep_read (s := { u with inputs := rest }) hl (readSize_readType hst') hread (by decide)
    (.typeUnknown unknown [] hst' (hmid.cfg ▸ hunknown))

/-- R161: with nothing left of the last segment the scan ends. -/
theorem scan_ends_of_empty (hl : s.cfg.legal = true) (hst : s.st = .seekMagic) (hrx : s.rx = [[]]) :
    ∃ t, issue syncStepPort s = .next t ∧ t.event = some .ended ∧ t.st = .ended ∧ t.events = s.events ++ [.ended] :=
  ⟨_, issue_syncStep_read hl (readSize_seekMagic hst) (congrArg (channelRead · 1) hrx) (by decide) (.scanEnds hst), rfl,
    rfl, rfl⟩

/-- Settles O33: the report, then garbage and the valid frame, then the end of the one segment; each SYNC.NEXT is allowed
the steps of the first. -/
theorem unknownTypeCostsExactlyOneFrame : Obligations.UnknownTypeCostsExactlyOneFrame := by
  intro s unknown type body f ts payload h hunknown hbody henc hrx
  have hrx' : s.started.rx = [s.cfg.magic :: unknown :: (body ++ f ++ [])] := by
    rw [List.append_nil]
    exact hrx
  obtain ⟨v, w, hq, hreport, hev, hinv, hcfg, hst, hrxw, hevents⟩ :=
    unknownType_reported (inv_started h) rfl hunknown hrx'
  obtain ⟨n, u, t, hq', hlast, he⟩ := garbage_frame_scanned hinv hst (hcfg ▸ hbody) (hcfg ▸ henc) hrxw
  have hnext : syncNext (0 + 1 + n + 1 + 1) s.started =
      .packet ⟨type, ts, payload, true⟩ { t with inputs := s.started.inputs } :=
    (syncNext_quietSteps (inputs := s.started.inputs) hq).trans
      ((syncNext_continues (hreport s.started.inputs) (by simp [hev]) (by simp [hev])).trans
        (syncNext_emitted hq' hlast he))
  obtain ⟨z, hz, hevz, hstz, heventsz⟩ :=
    scan_ends_of_empty (legal_of_issue_syncStep (hlast s.started.inputs)) he.st he.rx
  refine ⟨0 + 1 + n + 1 + 1, z, ?_, hstz, ?_⟩
  · rw [syncRun_eq]
    exact syncCollect_packet hnext (syncCollect_finished (syncNext_finished hz hevz))
  · have hstart : s.started.events = s.events := rfl
    simp [heventsz, he.events, hevents, hstart]

/-! ### Termination -/

/-- A bound on the SYNC.STEPs before the scan ends: two for each byte of RX, and one to come back to `SEEK_MAGIC`. -/
def State.stepsLeft (s : State) : Nat := 2 * s.rx.flatten.length + if s.st = .seekMagic then 0 else 1

/-- A SYNC.STEP without response bytes ends the scan or comes back to `SEEK_MAGIC` from another state (R161, R158). -/
theorem syncMove_nil_cases (h : s.Inv) (hne : s.st ≠ .ended) (hm : SyncMove s [] t) :
    t.st = .ended ∨ (s.st ≠ .seekMagic ∧ t.st = .seekMagic) := by
  have hpl : s.st = .readBody → s.phase = .pl → s.flen ≠ 0#6 := fun hst hph =>
    ((control_readPl hst hph).1 h.controlled).2.2
  cases hm with
  | scanEnds => exact .inl rfl
  | typeShort hst | tsShort _ hst | plShort _ hst | trShort _ hst | emitted _ _ _ hst => exact .inr ⟨by simp [hst], rfl⟩
  | tsRead _ _ _ hfull | trRead _ _ _ hfull => exact absurd hfull (by decide)
  | plNone _ hst hph hlen => exact absurd hlen (hpl hst hph)
  | plRead _ hst hph hlen hfull => exact absurd (BitVec.eq_of_toNat_eq (Nat.le_zero.1 hfull)) hlen
  | atEnd _ hst => exact absurd hst hne

/-- Every SYNC.STEP of a scan ends it or brings its end nearer (R252). -/
theorem stepsLeft_decreases (h : s.Inv) (hne : s.st ≠ .ended) (hs : issue syncStepPort s = .next t) :
    t.st = .ended ∨ t.stepsLeft < s.stepsLeft := by
  obtain ⟨r, hrx, -, hm⟩ := issue_syncStep_move hs
  have hlen : s.rx.flatten.length = r.length + t.rx.flatten.length := by rw [hrx, List.length_append]
  cases r with
  | nil =>
    refine (syncMove_nil_cases (inv_withRx h t.rx) hne hm).imp_right fun ⟨hseek, hseek'⟩ => ?_
    have hseek : s.st ≠ .seekMagic := hseek
    simp [State.stepsLeft, hlen, hseek, hseek']
  | cons b r =>
    right
    rw [List.length_cons] at hlen
    unfold State.stepsLeft
    split <;> split <;> omega

/-- The last event of a scan that has ended (R161). -/
def State.scanOver (s : State) : Prop := s.st = .ended ∧ s.events.getLast? = some .ended

/-- A SYNC.NEXT allowed more steps than are left returns a Packet, with fewer steps left, or finds the end. -/
theorem syncNext_ends (h : s.Inv) (hne : s.st ≠ .ended) (hn : s.stepsLeft < n) :
    (∃ p t, syncNext n s = .packet p t ∧ t.Inv ∧ t.st ≠ .ended ∧ t.stepsLeft < s.stepsLeft) ∨
      ∃ t, syncNext n s = .finished t ∧ t.scanOver := by
  induction n generalizing s with
  | zero => exact absurd hn (Nat.not_lt_zero _)
  | succ n ih =>
    obtain ⟨t, hs⟩ := issue_syncStep_completes h
    have hend := event_ended_iff_of_issue hne hs
    have hinv := inv_issue_syncStep h hs
    by_cases hst : t.st = .ended
    · have hev := hend.2 hst
      obtain ⟨-, -, hevents⟩ := issue_syncStep_kept hs
      exact .inr ⟨t, syncNext_finished hs hev, hst, by simp [hevents, hev]⟩
    · have hless := (stepsLeft_decreases h hne hs).resolve_left hst
      by_cases hemit : ∃ p, t.event = some (.emit p)
      · obtain ⟨p, hev⟩ := hemit
        exact .inl ⟨p, t, syncNext_packet hs hev, hinv, hst, hless⟩
      · rw [syncNext_continues hs (fun p hp => hemit ⟨p, hp⟩) (mt hend.1 hst)]
        refine (ih hinv hst (by omega)).imp_left ?_
        rintro ⟨p, u, hnext, hinvu, hstu, hlessu⟩
        exact ⟨p, u, hnext, hinvu, hstu, hlessu.trans hless⟩

/-- Repeated SYNC.NEXTs come to the end: each returns a Packet with fewer steps left. -/
theorem syncCollect_ends {fuel : Nat} (h : s.Inv) (hne : s.st ≠ .ended) (hn : s.stepsLeft < n)
    (hfuel : s.stepsLeft < fuel) :
    ∃ ps t, syncCollect fuel n s = some (ps, t) ∧ t.scanOver := by
  induction n generalizing s with
  | zero => exact absurd hn (Nat.not_lt_zero _)
  | succ n ih =>
    obtain ⟨p, t, hnext, hinv, hst, hless⟩ | ⟨t, hnext, hover⟩ := syncNext_ends h hne hfuel
    · obtain ⟨ps, u, hcollect, hover⟩ := ih hinv hst (by omega) (by omega)
      exact ⟨p :: ps, u, syncCollect_packet hnext hcollect, hover⟩
    · exact ⟨[], t, syncCollect_finished hnext, hover⟩

/-- Settles O34: from SYNC.START on the number of steps left bounds both the Packets and the steps of each SYNC.NEXT. -/
theorem scanOfFiniteStreamTerminates : Obligations.ScanOfFiniteStreamTerminates := by
  intro s h
  have hfuel : s.started.stepsLeft < s.started.stepsLeft + 1 := Nat.lt_succ_self _
  obtain ⟨ps, t, hcollect, hst, hlast⟩ := syncCollect_ends (inv_started h) nofun hfuel hfuel
  exact ⟨_, ps, t, (syncRun_eq _ s).trans hcollect, hst, hlast⟩

end Sys2Proof.Machine
end

section
/-!
PROOFS. The Color Codec: truncation and bit replication on one field, on one sample, and on strings of pixels
(spec/43_color.md R180 to R185).
-/

namespace Sys2Proof.Machine

/-! ### One field -/

/-- Truncating an expanded field gives the field back (R183 (a)). -/
@[simp] theorem trunc5_expand5 (v : BitVec 5) : trunc5 (expand5 v) = v := by
  apply BitVec.eq_of_toNat_eq
  rw [trunc5_toNat, expand5_toNat]
  omega

@[simp] theorem trunc6_expand6 (v : BitVec 6) : trunc6 (expand6 v) = v := by
  apply BitVec.eq_of_toNat_eq
  rw [trunc6_toNat, expand6_toNat]
  omega

/-- Expanding a truncated channel moves it by at most 7 (R182). -/
theorem expand5_trunc5_near (v : Byte) :
    (expand5 (trunc5 v)).toNat ≤ v.toNat + 7 ∧ v.toNat ≤ (expand5 (trunc5 v)).toNat + 7 := by
  have hv := v.isLt
  rw [expand5_toNat, trunc5_toNat]
  omega

/-- Expanding a truncated green channel moves it by at most 3 (R182). -/
theorem expand6_trunc6_near (v : Byte) :
    (expand6 (trunc6 v)).toNat ≤ v.toNat + 3 ∧ v.toNat ≤ (expand6 (trunc6 v)).toNat + 3 := by
  have hv := v.isLt
  rw [expand6_toNat, trunc6_toNat]
  omega

/-- Expansion is strictly increasing (R183 (b)). -/
theorem expand5_lt_expand5 {v v' : BitVec 5} (h : v.toNat < v'.toNat) : (expand5 v).toNat < (expand5 v').toNat := by
  rw [expand5_toNat, expand5_toNat]
  omega

theorem expand6_lt_expand6 {v v' : BitVec 6} (h : v.toNat < v'.toNat) : (expand6 v).toNat < (expand6 v').toNat := by
  rw [expand6_toNat, expand6_toNat]
  omega

/-! ### One sample -/

/-- The packed word of a sample as a number (R180). -/
theorem colorWord_toNat (c : Color) :
    (colorWord c).toNat = c.r.toNat / 8 * 2048 + c.g.toNat / 4 * 32 + c.b.toNat / 8 := by
  rw [colorWord, pack565_toNat, trunc5_toNat, trunc6_toNat, trunc5_toNat]

/-- Decoding a packed sample expands its truncated channels (R182). -/
theorem decodeWord_colorWord (c : Color) :
    decodeWord (colorWord c) = ⟨expand5 (trunc5 c.r), expand6 (trunc6 c.g), expand5 (trunc5 c.b)⟩ := by
  rw [decodeWord, colorWord, field5R_pack565, field6G_pack565, field5B_pack565]

/-- Packing a decoded word gives the word back (R183 (a)). -/
theorem colorWord_decodeWord (w : Half) : colorWord (decodeWord w) = w := by
  simp only [colorWord, decodeWord, trunc5_expand5, trunc6_expand6, pack565_fields]

/-- C565.ENC after C565.DEC is the identity (R183 (a)). -/
theorem encodeColor_decodeColor (p0 p1 : Byte) : encodeColor (decodeColor p0 p1) = [p0, p1] := by
  rw [encodeColor, decodeColor, colorWord_decodeWord, be16_fromBe16]

/-- The bytes a sample is encoded to are decoded from the word they hold (R180, R181). -/
theorem encodeColor_bytes (c : Color) :
    ∃ p0 p1, encodeColor c = [p0, p1] ∧ decodeColor p0 p1 = decodeWord (colorWord c) :=
  ⟨_, _, rfl, congrArg decodeWord (fromBe16_be16 (colorWord c))⟩

/-- C565.ENC and then C565.DEC of its bytes, from every state, by the two functions they compute. -/
theorem exec_c565Enc_c565Dec (s : State) {c d : Color} {p0 p1 : Byte} (henc : encodeColor c = [p0, p1])
    (hdec : decodeColor p0 p1 = d) :
    ∃ t u, exec (.c565Enc c.r c.g c.b) s = .next t ∧ t.result = .bytes [p0, p1] ∧
      exec (.c565Dec p0 p1) t = .next u ∧ u.result = .color d :=
  ⟨_, _, rfl, congrArg Result.bytes henc, rfl, congrArg Result.color hdec⟩

/-- Settles O38: C565.DEC after C565.ENC expands the truncated channels, and each channel is near its expansion. -/
theorem colorRoundTripErrorIsBounded : Obligations.ColorRoundTripErrorIsBounded := by
  refine ⟨fun s c => ?_, fun s => exec_c565Enc_c565Dec s (c := ⟨7#8, 3#8, 7#8⟩) (by decide) (by decide),
    fun s => exec_c565Enc_c565Dec s (c := ⟨248#8, 252#8, 248#8⟩) (by decide) (by decide)⟩
  obtain ⟨p0, p1, henc, hdec⟩ := encodeColor_bytes c
  obtain ⟨t, u, ht, hbytes, hu, hcolor⟩ := exec_c565Enc_c565Dec s henc (hdec.trans (decodeWord_colorWord c))
  obtain ⟨hr, hr'⟩ := expand5_trunc5_near c.r
  obtain ⟨hg, hg'⟩ := expand6_trunc6_near c.g
  obtain ⟨hb, hb'⟩ := expand5_trunc5_near c.b
  exact ⟨t, p0, p1, u, _, ht, hbytes, hu, hcolor, hr, hr', hg, hg', hb, hb'⟩

/-- Settles O39: truncation undoes expansion in each field, and a word is its fields packed. -/
theorem colorEncodeAfterDecodeIsIdentity : Obligations.ColorEncodeAfterDecodeIsIdentity :=
  ⟨fun _ p0 p1 => ⟨_, _, rfl, rfl, _, rfl, congrArg Result.bytes (encodeColor_decodeColor p0 p1)⟩,
    fun _ _ => expand5_lt_expand5, fun _ _ => expand6_lt_expand6⟩

/-- Settles O36: the two bytes are those of the packed word as a number. -/
theorem colorEncodeTruncatesAndPacks : Obligations.ColorEncodeTruncatesAndPacks := by
  refine ⟨fun _ _ _ => rfl, fun s r g b => ?_, by decide, by decide, by decide, by decide⟩
  exact ⟨_, (colorWord ⟨r, g, b⟩).toNat, rfl, colorWord_toNat ⟨r, g, b⟩, congrArg Result.bytes (be16_toNat _),
    complete_coreKept s _, complete_envKept s _, rfl⟩

/-- Settles O37: the word's fields as numbers, expanded. -/
theorem colorDecodeReplicatesHighBits : Obligations.ColorDecodeReplicatesHighBits := by
  refine ⟨fun _ _ => rfl, fun s p0 p1 => ?_, by decide, by decide, by decide⟩
  exact ⟨_, decodeColor p0 p1, _, _, _, _, rfl, rfl, fromBe16_toNat p0 p1, field5R_toNat _, field6G_toNat _,
    field5B_toNat _, expand5_toNat _, expand6_toNat _, expand5_toNat _, complete_coreKept s _, complete_envKept s _, rfl⟩

/-! ### Strings of pixels -/

/-- The bytes of a packed pixel are those of its sample (R184). -/
theorem slice_packPixels {cs : List Color} {i : Nat} {c : Color} (h : cs[i]? = some c) :
    slice (packPixels cs) (2 * i) (2 * i + 2) = encodeColor c := by
  induction cs generalizing i with
  | nil => cases h
  | cons c' cs ih =>
    cases i with
    | zero => cases h; rfl
    | succ i => simpa [packPixels, encodeColor, be16, slice, Nat.mul_succ] using ih h

/-- A sample of an unpacked string is decoded from its pair of bytes (R185). -/
theorem getElem?_unpackPixels {bs : List Byte} {i : Nat} (h : i < bs.length / 2) :
    (unpackPixels bs)[i]? = some (decodeColor (byteAt bs (2 * i)) (byteAt bs (2 * i + 1))) := by
  induction bs using unpackPixels.induct generalizing i with
  | case1 p0 p1 rest ih =>
    cases i with
    | zero => rfl
    | succ i => exact ih (by rw [List.length_cons, List.length_cons] at h; omega)
  | case2 bs hshort =>
    match bs with
    | [] | [_] => exact absurd h (by simp)
    | p0 :: p1 :: rest => exact (hshort p0 p1 rest rfl).elim

/-- Settles O40: every sample adds its two bytes. -/
theorem pixelPackPlacesEachSample : Obligations.PixelPackPlacesEachSample :=
  ⟨fun _ hlen => if_pos hlen, fun s px _ => ⟨_, packPixels px, rfl, rfl, packPixels_length px,
    fun _ _ => slice_packPixels, complete_coreKept s _, complete_envKept s _, rfl⟩, by decide⟩

/-- Settles O41: every pair of bytes adds its sample, and a byte is left over exactly when the length is odd. -/
theorem pixelUnpackReadsEachPair : Obligations.PixelUnpackReadsEachPair := by
  refine ⟨fun _ hlen => if_pos hlen, fun s bs _ heven => ?_, fun s bs _ hodd => ?_, by decide⟩
  · exact ⟨_, unpackPixels bs, if_neg (by omega), rfl, unpackPixels_length bs, fun _ => getElem?_unpackPixels,
      complete_coreKept s _, complete_envKept s _, rfl⟩
  · exact ⟨_, if_pos hodd, rfl, raise_coreKept s _, raise_envKept s _⟩

end Sys2Proof.Machine
end

section
/-!
PROOFS. Errors and events: the codes the ports show, how an operation of the command port ends, the error it can raise, and
that it reads neither port (spec/60_exceptions.md R200 to R210, R213; spec/42_sync.md R168).
-/

namespace Sys2Proof.Machine

variable {s t : State}

/-! ### The codes -/

theorem errCode_of_none (h : s.err = none) : s.errCode = 0x0#4 := by rw [State.errCode, h]

theorem errCode_of_some {e : OpError} (h : s.err = some e) : s.errCode = e.code := by rw [State.errCode, h]

theorem evCode_of_none (h : s.event = none) : s.evCode = 0x0#4 := by rw [State.evCode, h]

theorem evCode_of_some {ev : Event} (h : s.event = some ev) : s.evCode = ev.code := by rw [State.evCode, h]

/-- Settles O46: the port shows the code of what it holds, and that code by definition. -/
theorem errorAndEventCodesAsTabulated : Obligations.ErrorAndEventCodesAsTabulated := fun _ =>
  ⟨errCode_of_none, fun _ _ => errCode_of_some, fun _ => errCode_of_some, fun _ => errCode_of_some,
    fun _ => errCode_of_some, fun _ => errCode_of_some,
    evCode_of_none, fun _ => evCode_of_some, fun _ => evCode_of_some, fun _ _ _ => evCode_of_some, evCode_of_some⟩

/-! ### Reserved codes -/

/-- The codes from `0xC` on decode to the reserved instructions, each of which raises IllegalOp of its code (R94, R210). -/
theorem decodeCommand_reserved {p : CommandPort} (h : 12 ≤ p.op.toNat) :
    ∃ i, decodeCommand p = .ok i ∧ ∀ s, exec i s = .next (s.raise (.illegalOp p.op)) := by
  have hlt := p.op.isLt
  have hop : p.op = 0xC#4 ∨ p.op = 0xD#4 ∨ p.op = 0xE#4 ∨ p.op = 0xF#4 := by bv_omega
  unfold decodeCommand
  rcases hop with hop | hop | hop | hop <;> (rw [hop]; exact ⟨_, rfl, fun _ => rfl⟩)

/-- Settles O43: the operand ports play no part in decoding a reserved code, and raising changes nothing but the ports. -/
theorem reservedCodesRaiseIllegalOp : Obligations.ReservedCodesRaiseIllegalOp := by
  refine ⟨fun s p hp => ?_, fun s => ?_, fun s => ?_, fun s => ?_, fun s => ?_⟩
  · obtain ⟨i, hd, hexec⟩ := decodeCommand_reserved hp
    have h7 : p.op ≠ 0x7#4 := by bv_omega
    exact ⟨_, (issue_decoded (fun _ hc => Presented.op4.inj hc ▸ h7) hd).trans (hexec s), rfl, raise_coreKept s _,
      raise_envKept s _⟩
  all_goals exact ⟨_, rfl, rfl, raise_coreKept s _, raise_envKept s _⟩

/-! ### How an operation of the command port ends -/

/-- The errors an instruction can raise (R201, R202, R208 to R210). -/
inductive Raises : Instr → OpError → Prop where
  | malformedPayload (type : Byte) (ts : Timestamp) (payload : List Byte) :
      Raises (.pktEncode type ts payload) (.malformedPayload type payload.length)
  | notAFrame (f : List Byte) (e : FrameError) : Raises (.pktDecode f) (frameErrorOf e)
  | oddLength (bs : List Byte) : Raises (.pixUnpack bs) (.badLength bs.length)
  | reservedC : Raises .reservedC (.illegalOp 0xC#4)
  | reservedD : Raises .reservedD (.illegalOp 0xD#4)
  | reservedE : Raises .reservedE (.illegalOp 0xE#4)
  | reservedF : Raises .reservedF (.illegalOp 0xF#4)

theorem malformedPayload_of_encodePacket_error {cfg : Config} {type : Byte} {ts : Timestamp} {payload : List Byte}
    {e : OpError} (h : encodePacket cfg type ts payload = .error e) : e = .malformedPayload type payload.length := by
  unfold encodePacket at h
  split at h
  · cases h
  · exact (Except.error.inj h).symm

theorem frameErrorOf_of_decodePacket_error {cfg : Config} {f : List Byte} {e : OpError}
    (h : decodePacket cfg f = .error e) : ∃ fe, e = frameErrorOf fe := by
  unfold decodePacket at h
  split at h
  · exact ⟨_, (Except.error.inj h).symm⟩
  · cases h

theorem frameErrorOf_ne (fe : FrameError) (type : Byte) (n : Nat) (op : BitVec 4) :
    frameErrorOf fe ≠ .malformedPayload type n ∧ frameErrorOf fe ≠ .illegalOp op := by
  cases fe <;> exact ⟨nofun, nofun⟩

/-- An operation of the command port other than SYNC.STEP completes, or raises an error in the state it was issued from. -/
theorem exec_command_ends {i : Instr} (hi : ∃ p, encode s.cfg i = .op4 p) (hstep : ∀ r, i ≠ .syncStep r)
    (h : exec i s = .next t) : (∃ u r, t = State.complete r u) ∨ ∃ e, Raises i e ∧ t = s.raise e := by
  cases i with
  | crcInit | crcUpdate | crcCompute | crcVerify | syncStart | c565Enc | c565Dec | pixPack =>
    exact .inl ⟨_, _, (Host.Outcome.next.inj h).symm⟩
  | reservedC => exact .inr ⟨_, .reservedC, (Host.Outcome.next.inj h).symm⟩
  | reservedD => exact .inr ⟨_, .reservedD, (Host.Outcome.next.inj h).symm⟩
  | reservedE => exact .inr ⟨_, .reservedE, (Host.Outcome.next.inj h).symm⟩
  | reservedF => exact .inr ⟨_, .reservedF, (Host.Outcome.next.inj h).symm⟩
  | pktEncode type ts payload =>
    obtain ⟨-, ⟨f, -, ht⟩ | ⟨e, he, ht⟩⟩ := execPktEncode_next h
    · exact .inl ⟨s, _, ht⟩
    · obtain rfl := malformedPayload_of_encodePacket_error he
      exact .inr ⟨_, .malformedPayload type ts payload, ht⟩
  | pktDecode f =>
    obtain ⟨-, ⟨p, -, ht⟩ | ⟨e, he, ht⟩⟩ := execPktDecode_next h
    · exact .inl ⟨s, _, ht⟩
    · obtain ⟨fe, rfl⟩ := frameErrorOf_of_decodePacket_error he
      exact .inr ⟨_, .notAFrame f fe, ht⟩
  | pixUnpack bs =>
    obtain ⟨-, ht⟩ | ⟨-, ht⟩ := execPixUnpack_next h
    · exact .inr ⟨_, .oddLength bs, ht⟩
    · exact .inl ⟨s, _, ht⟩
  | syncStep r => exact absurd rfl (hstep r)
  | frame | frameImageChunk | pixel565 => obtain ⟨p, hp⟩ := hi; cases hp

/-- What ends with an error has raised it: SYNC.STEP ends with none (R213). -/
theorem exec_command_raises {i : Instr} {e : OpError} (hi : ∃ p, encode s.cfg i = .op4 p) (h : exec i s = .next t)
    (he : t.err = some e) : Raises i e ∧ t = s.raise e := by
  by_cases hstep : ∃ r, i = .syncStep r
  · obtain ⟨r, rfl⟩ := hstep
    obtain ⟨-, -, hm⟩ := execSyncStep_iff.1 h
    obtain ⟨-, -, -, -, -, -, hnone, -⟩ := syncMove_kept hm
    cases hnone.symm.trans he
  · obtain ⟨u, r, rfl⟩ | ⟨e', hr, rfl⟩ := exec_command_ends hi (fun r hr => hstep ⟨r, hr⟩) h
    · cases he
    · cases he
      exact ⟨hr, rfl⟩

/-- Settles O44: an error is raised in the state the operation was issued from, by one of the operations of `Raises`. -/
theorem errorsHaveNoOtherEffect : Obligations.ErrorsHaveNoOtherEffect := by
  intro i s t e hi h he
  obtain ⟨hr, rfl⟩ := exec_command_raises hi h he
  refine ⟨raise_coreKept s e, raise_envKept s e, rfl, rfl, ?_⟩
  cases hr with
  | malformedPayload type ts payload => exact .inl ⟨type, ts, payload, rfl, rfl⟩
  | notAFrame f fe => exact .inr (.inl ⟨f, rfl, frameErrorOf_ne fe⟩)
  | oddLength bs => exact .inr (.inr (.inl ⟨bs, rfl, rfl⟩))
  | reservedC | reservedD | reservedE | reservedF => simp

/-! ### The error and event ports -/

/-- Going on after a store is a matter of its bounds (R24). -/
theorem orFault_storeFrame (s : State) (a : Nat) (bs : List Byte) (k : State → Outcome) :
    orFault (s.storeFrame a bs) k =
      if a + bs.length ≤ frameMax then k (s.stored a bs) else .fault .frameBufferRange := by
  unfold State.storeFrame
  split <;> rfl

/-- SYNC.STEP does not read the two ports: where it stores, it goes on from a state whose ports it then overwrites. -/
theorem execSyncStep_withPorts (r : List Byte) (s : State) (err : Option OpError) (event : Option Event) :
    execSyncStep r { s with err := err, event := event } = execSyncStep r s := by
  simp only [execSyncStep, syncSeekMagic, syncReadType, syncReadTs, syncReadPl, syncReadTr, orFault_storeFrame]
  rfl

/-- No operation of the command port reads the two ports, and every one overwrites both (R213, log 10). -/
theorem exec_withPorts {i : Instr} (hi : ∃ p, encode s.cfg i = .op4 p) (err : Option OpError) (event : Option Event) :
    exec i { s with err := err, event := event } = exec i s := by
  cases i with
  | syncStep r => exact execSyncStep_withPorts r s err event
  | frame | frameImageChunk | pixel565 => obtain ⟨p, hp⟩ := hi; cases hp
  | crcInit | crcUpdate | crcCompute | crcVerify | pktEncode | pktDecode | syncStart | c565Enc | c565Dec | pixPack
  | pixUnpack | reservedC | reservedD | reservedE | reservedF => rfl

theorem OpEnd.events_eq (h : OpEnd s t) : t.events = s.events := by
  cases h <;> rfl

theorem exec_events_of_not_syncStep {i : Instr} (hstep : ∀ r, i ≠ .syncStep r) (h : exec i s = .next t) :
    t.events = s.events := by
  by_cases hstart : i = .syncStart
  · subst hstart
    cases h
    rfl
  · exact (exec_opEnd hstart hstep h).events_eq

/-- Settles O45: the record of events by the moves of SYNC.STEP and the ends of the others; the ports because they are not
read. -/
theorem eachOperationOverwritesThePorts : Obligations.EachOperationOverwritesThePorts := by
  refine ⟨fun s t r h => ?_, fun _ _ _ => exec_events_of_not_syncStep, fun i s s' t t' hi hs h h' => ?_,
    fun i s t hi hstep h => ?_⟩
  · obtain ⟨-, -, hm⟩ := execSyncStep_iff.1 h
    obtain ⟨-, -, -, -, -, -, -, hevents⟩ := syncMove_kept hm
    exact hevents
  · have hsame : exec i s' = exec i s := (congrArg (exec i) hs).trans (exec_withPorts hi _ _)
    obtain rfl := Host.Outcome.next.inj (h'.symm.trans (hsame.trans h))
    exact ⟨rfl, rfl⟩
  · obtain ⟨u, r, rfl⟩ | ⟨e, -, rfl⟩ := exec_command_ends hi hstep h
    · exact ⟨evCode_of_none rfl, rfl⟩
    · exact ⟨evCode_of_none rfl, rfl⟩

end Sys2Proof.Machine
end

section
/-!
PROOFS. The reset input as one step of the machine (spec/70_reset_and_hazards.md R240; spec/10_state.md R35).
-/

namespace Sys2Proof.Machine

/-- A step that serves the reset input applies `assertReset` once the input is taken. -/
theorem step_reset {s : State} {rest : List Input} (hin : s.inputs = .reset :: rest) :
    step s = .next ({ s with inputs := rest } : State).assertReset := step_serves hin

/-- Settles O58: the step is `assertReset`, each of whose fields is its reset value or the old one (the `assertReset_` lemmas);
an empty buffer holds no byte; a step with no input is idle. -/
theorem resetInputRestoresResetValues : Obligations.ResetInputRestoresResetValues := by
  refine ⟨fun s rest hin => ⟨_, step_reset hin, ?_⟩, fun _ => step_idle⟩
  simp

end Sys2Proof.Machine
end
